-- ==== Sys2Proof/Word.lean ====
section
/-!
DEFINITION. The widths of the core's values (00_scope.md R5, R6) as bit vectors. Every value is an unsigned
binary number (R8); addition on them wraps at the width, and `setWidth` to a larger width is `zext`.
-/

namespace Sys2Proof

/-- A 4-bit field of an instruction word: a register index or an opcode part (30_encoding.md R71). -/
abbrev Nibble := BitVec 4

/-- A memory cell or a general register: 8 bits (00_scope.md R5). -/
abbrev Byte := BitVec 8

/-- An instruction word, a stack slot or the program counter: 16 bits (00_scope.md R5, R6). -/
abbrev Word := BitVec 16

/-- A memory address and a CALL target: 12 bits (00_scope.md R5, R6). -/
abbrev Addr := BitVec 12

/-- The stack pointer: 5 bits, of which the values 0 to 16 are reachable (10_state.md R28). -/
abbrev StackPtr := BitVec 5

end Sys2Proof
end

