-- ==== Sys2Proof/Config.lean ====
section
/-!
DEFINITION. The parameters of the hardware, all fixed by the spec (00_scope.md R5, R6: "No parameter is left open
for the model to take as an argument"). There is no free value: 93_implementation_defined.md treats no case as
`any value`.
-/

namespace Sys2Proof.Config

/-- `MEM_SIZE`, the number of bytes of memory (00_scope.md R5). -/
def memSize : Nat := 4096

/-- `NREG`, the number of general registers (00_scope.md R5). -/
def nReg : Nat := 16

/-- `STACK_DEPTH`, the number of return-address slots (00_scope.md R5). -/
def stackDepth : Nat := 16

/-- The register that takes ADD's carry, VF (10_state.md R22). -/
def flagReg : Nibble := 15

/-- The program counter's advance per instruction (00_scope.md R5). -/
def pcStep : Word := 2

/-- The highest address an instruction is fetched from (20_memory.md R53). -/
def lastFetch : Word := 0xFFE

/-- The highest value the program counter takes (10_state.md R25). -/
def pcMax : Word := 0x1000

/-- The stack pointer of a full stack (10_state.md R28). -/
def spFull : StackPtr := 16

/-- The entry point: the program counter after reset (10_state.md R35). -/
def entry : Word := 0

/-- What every memory byte holds after reset, so what an unlisted address reads as (10_state.md R35). -/
def resetByte : Byte := 0

end Sys2Proof.Config
end

