-- ==== Sys2Proof/Syntax.lean ====
section
/-!
DEFINITION. The instructions of the core: one constructor per row of spec/opcode_table.json (00_scope.md R2).
A word that is none of the four is no instruction: it decodes to `Variant.unknown` (WellFormed.lean, R75).
-/

namespace Sys2Proof

/-- The four instructions, with their operands as 30_encoding.md R73 gives them. -/
inductive Instr where
  /-- HALT (40_sequencer.md R96). -/
  | halt
  /-- ADD Vx, Vy (41_arithmetic.md R113): `x` is destination and first source, `y` the second source. -/
  | add (x y : Nibble)
  /-- CALL nnn (42_call_return.md R135): `nnn` is the target address. -/
  | call (nnn : Addr)
  /-- RET (42_call_return.md R137). -/
  | ret
  deriving DecidableEq, Repr

end Sys2Proof
end

