-- ==== Sys2Proof/WellFormed.lean ====
section
/-!
DEFINITION. The terms the machine is given (an instruction, a decoded variant, a host request, an element a host
names to read) and the check of each. An instruction's operands are in range by construction (30_encoding.md R72);
a variant must not call a pattern of the opcode table unknown (R75); a host index must be in range
(70_reset_and_hazards.md R186, R187, R190).
-/

namespace Sys2Proof

/-- Every register index names a register and every CALL target is an address (30_encoding.md R72). The fields'
widths make this true of every instruction, so "no operand needs a range check". -/
def Instr.wf : Instr → Bool
  | .halt => true
  | .add x y => decide (x.toNat < Config.nReg) && decide (y.toNat < Config.nReg)
  | .call nnn => decide (nnn.toNat < Config.memSize)
  | .ret => true

/-- What the decoder answers (30_encoding.md R73): one of the four instructions, or UNKNOWN with its four fields.
UNKNOWN has no row in the opcode table, so it is no constructor of `Instr` (log 4). -/
inductive Variant where
  | instr (i : Instr)
  | unknown (c x y d : Nibble)
  deriving DecidableEq, Repr

/-- A variant a decoder may answer: an UNKNOWN's fields match none of the four patterns of 30_encoding.md R73. -/
def Variant.wf : Variant → Bool
  | .instr i => i.wf
  | .unknown c x y d =>
    !(decide (c = 0 ∧ x = 0 ∧ y = 0 ∧ d = 0) || decide (c = 0 ∧ x = 0 ∧ y = 0xE ∧ d = 0xE)
      || decide (c = 2) || decide (c = 8 ∧ d = 4))

/-- A request of the host that may change state (70_reset_and_hazards.md R180, R186, R187, R188). An index is a
plain number here, because the spec says what an index out of range does. -/
inductive HostRequest where
  /-- Reset, the source's construction (R180). -/
  | reset
  /-- Setup write of a memory byte (R186). -/
  | writeMem (addr : Nat) (v : Byte)
  /-- Setup write of a general register (R187). -/
  | writeReg (i : Nat) (v : Byte)
  /-- The run request (R188). -/
  | run
  deriving DecidableEq, Repr

/-- The index of a setup write is in range (70_reset_and_hazards.md R186, R187). -/
def HostRequest.wf : HostRequest → Bool
  | .reset => true
  | .writeMem addr _ => decide (addr < Config.memSize)
  | .writeReg i _ => decide (i < Config.nReg)
  | .run => true

/-- An element of state the host may name to read (70_reset_and_hazards.md R189). -/
inductive StateElement where
  | reg (i : Nat)
  | pc
  | sp
  | slot (j : Nat)
  | run
  | cause
  | memByte (addr : Nat)
  deriving DecidableEq, Repr

/-- The element exists (10_state.md R20, R27, R30). -/
def StateElement.wf : StateElement → Bool
  | .reg i => decide (i < Config.nReg)
  | .pc => true
  | .sp => true
  | .slot j => decide (j < Config.stackDepth)
  | .run => true
  | .cause => true
  | .memByte addr => decide (addr < Config.memSize)

end Sys2Proof
end

