-- ==== Sys2Proof/Decode.lean ====
section
/-!
DEFINITION. The decoder (30_encoding.md R70 to R78), total on every word, with UNKNOWN as the named rejection, and
after it the encoder (R80) and the opcode table's rows as data.
-/

namespace Sys2Proof

/-- Two bytes joined high byte first, as the fetch joins them (20_memory.md R52, R54). -/
def joinBytes (hi lo : Byte) : Word := hi ++ lo

/-- The byte stored at the lower address: bits 15 to 8 (20_memory.md R54). -/
def highByte (w : Word) : Byte := w.extractLsb' 8 8

/-- The byte stored at the higher address: bits 7 to 0 (20_memory.md R54). -/
def lowByte (w : Word) : Byte := w.extractLsb' 0 8

/-- `C = word[15:12]`, the major opcode (30_encoding.md R71). -/
def fieldC (w : Word) : Nibble := w.extractLsb' 12 4

/-- `X = word[11:8]` (30_encoding.md R71). -/
def fieldX (w : Word) : Nibble := w.extractLsb' 8 4

/-- `Y = word[7:4]` (30_encoding.md R71). -/
def fieldY (w : Word) : Nibble := w.extractLsb' 4 4

/-- `D = word[3:0]` (30_encoding.md R71). -/
def fieldD (w : Word) : Nibble := w.extractLsb' 0 4

/-- `NNN = word[11:0]` (30_encoding.md R71). -/
def fieldNNN (w : Word) : Addr := w.extractLsb' 0 12

/-- The decoder, in the order of the pseudocode of 30_encoding.md R73. -/
def decodeWord (w : Word) : Variant :=
  if w = 0x0000 then .instr .halt
  else if w = 0x00EE then .instr .ret
  else if fieldC w = 0x2 then .instr (.call (fieldNNN w))
  else if fieldC w = 0x8 ∧ fieldD w = 0x4 then .instr (.add (fieldX w) (fieldY w))
  else .unknown (fieldC w) (fieldX w) (fieldY w) (fieldD w)

/-- The variant is a function of the two bytes at `A` and `A + 1` (40_sequencer.md R92). -/
def decodeBytes (hi lo : Byte) : Variant := decodeWord (joinBytes hi lo)

/-- The instruction the decoder reads from an opcode-table word of `nbits` bits; every bit above them is 0. The
table's bit 15 is the word's bit 15, so the word's high byte is the first one stored (30_encoding.md R70). -/
def decodeTableWord (nbits w : Nat) : Option Instr :=
  let word : Word := BitVec.ofNat 16 (w % 2 ^ nbits)
  match decodeBytes (highByte word) (lowByte word) with
  | .instr i => some i
  | .unknown _ _ _ _ => none

/-- The word of an instruction, laid out as the encodings of the opcode table: `0000000000000000`,
`1000xxxxyyyy0100`, `0010nnnnnnnnnnnn`, `0000000011101110`. -/
def encode : Instr → Word
  | .halt => 0x0000
  | .add x y => 0x8#4 ++ x ++ y ++ 0x4#4
  | .call nnn => 0x2#4 ++ nnn
  | .ret => 0x00EE

/-- The bytes of an instruction in memory, the first at the lower address (30_encoding.md R80). -/
def encodeBytes (i : Instr) : List Byte := [highByte (encode i), lowByte (encode i)]

/-- The word of a variant: an UNKNOWN carries the four fields it was split into (30_encoding.md R75, R76). -/
def encodeVariant : Variant → Word
  | .instr i => encode i
  | .unknown c x y d => c ++ x ++ y ++ d

/-- A row of spec/opcode_table.json: a word is of the row when `word & mask = pattern`. -/
structure TableRow where
  mnemonic : String
  pattern : Word
  mask : Word
  deriving DecidableEq, Repr

/-- The row an instruction is listed under in spec/opcode_table.json. -/
def tableRow : Instr → TableRow
  | .halt => ⟨"HALT", 0x0000, 0xFFFF⟩
  | .add _ _ => ⟨"ADD", 0x8004, 0xF00F⟩
  | .call _ => ⟨"CALL", 0x2000, 0xF000⟩
  | .ret => ⟨"RET", 0x00EE, 0xFFFF⟩

end Sys2Proof
end

