-- ==== Sys2Proof/Machine/State.lean ====
section
/-!
DEFINITION. The architectural state of the core (10_state.md), plain data, and its value after reset (R35).
-/

namespace Sys2Proof.Machine

/-- The run state (10_state.md R31). The 2-bit codes are `RunState.code` (HostOps.lean). -/
inductive RunState where
  /-- Constructed or reset; the host's setup phase; no step is taken. -/
  | idle
  /-- The run loop is executing. -/
  | running
  /-- A HALT executed; the run ended normally. -/
  | halted
  /-- A fatal condition stopped the run; `cause` says which. -/
  | faulted
  deriving DecidableEq, Repr

/-- The fault cause (10_state.md R32). The 3-bit codes are `FaultCause.code` (HostOps.lean); the reserved codes 5 to
7 are never written and have no constructor (log 3). -/
inductive FaultCause where
  | none
  | fetchOutOfRange
  | illegalInstruction
  | stackOverflow
  | stackUnderflow
  deriving DecidableEq, Repr

/-- Memory (10_state.md R30): the bytes that differ from `Config.resetByte`, by strictly rising address
(`Memory.wf`, Ops.lean; log 6). -/
abbrev Memory := List Host.Cell

/-- Every element of state the spec gives the machine (the summary table of 10_state.md). -/
structure State where
  /-- `x[0]` to `x[15]` (R20). -/
  regs : Vector Byte 16
  /-- The program counter (R24). -/
  pc : Word
  /-- `stack[0]` to `stack[15]` (R27). -/
  stack : Vector Word 16
  /-- The index of the next free slot (R28). -/
  sp : StackPtr
  /-- The run state (R31). -/
  run : RunState
  /-- The fault cause (R32). -/
  cause : FaultCause
  /-- `mem[0]` to `mem[0xFFF]` (R30). -/
  mem : Memory
  deriving DecidableEq, Repr

/-- Why no step can be taken although nothing is wrong with the state. The four fatal conditions of
60_exceptions.md R150 are NOT here: each is a next state with `run = FAULTED` (R155; log 1). -/
inductive Fault where
  /-- Raised by `step` alone, when the run state (given) is not RUNNING: the core is stuck there, since "No step is
  taken in any other run state" (00_scope.md R10). Safe: nothing is claimed of such a step (log 1). -/
  | notRunning (run : RunState)
  deriving DecidableEq, Repr

/-- Why the model gives no next state. -/
inductive Refusal where
  /-- Raised by `exec` for an instruction without a meaning; no arm does. Safe. -/
  | notModelled (mnemonic : String)
  /-- Raised by `step` in a RUNNING state whose `sp` is above 16 or whose `pc` is above 0x1000, and by CALL and RET
  at such an `sp`: the state is ill-formed and is refused (93_implementation_defined.md U13). Safe: no step or host
  request produces one (log 2). -/
  | illFormedState
  /-- Raised by a host request or a host read the rules do not admit (70_reset_and_hazards.md R190); never by a
  step. Safe: the spec says the request is refused and changes nothing. -/
  | usageError
  deriving DecidableEq, Repr

/-- The machine right after reset (10_state.md R35, 70_reset_and_hazards.md R180). -/
def State.reset : State where
  regs := Vector.replicate 16 0
  pc := Config.entry
  stack := Vector.replicate 16 0
  sp := 0
  run := .idle
  cause := .none
  mem := []

end Sys2Proof.Machine
end

