-- ==== Sys2Proof/Machine/Operands.lean ====
section
/-!
DEFINITION. Operand forms (30_encoding.md R72): a register index names a register, a CALL target is the 12-bit field
zero-extended, a byte address. Registers are read and written through the two accessors here alone.
-/

namespace Sys2Proof.Machine

/-- `x[i]` (00_scope.md R9). No register is hardwired (10_state.md R20). -/
def readReg (s : State) (i : Nibble) : Byte := s.regs[i.toNat]'i.isLt

/-- `x[i] <- v` (00_scope.md R9). -/
def writeReg (s : State) (i : Nibble) (v : Byte) : State := { s with regs := s.regs.set i.toNat v i.isLt }

/-- `zext_16(NNN)`: the target as the new pc, neither scaled nor checked (30_encoding.md R72). -/
def callTarget (nnn : Addr) : Word := nnn.setWidth 16

end Sys2Proof.Machine
end

