-- ==== Sys2Proof/Machine/Flags.lean ====
section
/-!
DEFINITION. The ALU and the one flag: the unsigned carry out of bit 7, kept in `x[15]` (10_state.md R23,
41_arithmetic.md R110 to R112).
-/

namespace Sys2Proof.Machine

/-- `alu_add`: the 9-bit sum, cut into the wrapped sum and the carry (41_arithmetic.md R110). -/
def aluAdd (a b : Byte) : Byte × BitVec 1 :=
  let s9 : BitVec 9 := a.setWidth 9 + b.setWidth 9
  (s9.extractLsb' 0 8, s9.extractLsb' 8 1)

/-- `x[15] <- zext_8(carry)`, the flag write of ADD (41_arithmetic.md R113). -/
def writeCarry (s : State) (carry : BitVec 1) : State := writeReg s Config.flagReg (carry.setWidth 8)

end Sys2Proof.Machine
end

