-- ==== Sys2Proof/Machine/Ops.lean ====
section
/-!
DEFINITION. The named operations every meaning is built from: memory, fetch, the program counter's advance, the
return-address stack, `halt`, and `raise` (the one way a fatal condition is taken; 60_exceptions.md R155). There is
no return from a fault (R160).
-/

namespace Sys2Proof.Machine

/-! ### Memory (20_memory.md) -/

/-- The byte at an address; an unlisted one holds its reset value (10_state.md R35). -/
def Memory.read : Memory → Nat → Byte
  | [], _ => Config.resetByte
  | (b, u) :: rest, a => if a = b then u else Memory.read rest a

/-- Writes a byte, keeping the canonical form: a byte that reads as an unlisted one is not listed. -/
def Memory.write : Memory → Nat → Byte → Memory
  | [], a, v => if v = Config.resetByte then [] else [(a, v)]
  | (b, u) :: rest, a, v =>
    if a < b then (if v = Config.resetByte then (b, u) :: rest else (a, v) :: (b, u) :: rest)
    else if a = b then (if v = Config.resetByte then rest else (a, v) :: rest)
    else (b, u) :: Memory.write rest a v

/-- The listed addresses rise strictly from `lo`, lie in memory, and list no byte that an unlisted address reads as. -/
def Memory.wfFrom : Nat → Memory → Bool
  | _, [] => true
  | lo, (a, v) :: rest =>
    decide (lo ≤ a) && decide (a < Config.memSize) && decide (v ≠ Config.resetByte) && Memory.wfFrom (a + 1) rest

/-- The canonical form of memory (log 6). -/
def Memory.wf (m : Memory) : Bool := Memory.wfFrom 0 m

/-- `MemRead(addr, 1)` (00_scope.md R9): no side effect (20_memory.md R57). -/
def memRead (s : State) (a : Addr) : Byte := Memory.read s.mem a.toNat

/-- `MemWrite(addr, 1, v)` (00_scope.md R9); only the host's setup uses it (70_reset_and_hazards.md R186). -/
def memWrite (s : State) (a : Addr) (v : Byte) : State := { s with mem := Memory.write s.mem a.toNat v }

/-! ### Fetch and sequencing (20_memory.md R52, R53; 40_sequencer.md R93) -/

/-- The 12-bit address the fetch port presents (20_memory.md R52). -/
def portAddr (a : Word) : Addr := a.extractLsb' 0 12

/-- The word at `pc`, or nothing when `pc > 0xFFE`, where no byte is read (20_memory.md R52, R53). -/
def fetchWord (s : State) : Option Word :=
  if s.pc > Config.lastFetch then none
  else some (joinBytes (memRead s (portAddr s.pc)) (memRead s (portAddr (s.pc + 1))))

/-- `pc <- A + 2`, before the instruction's effect (40_sequencer.md R93). -/
def advancePc (s : State) : State := { s with pc := s.pc + Config.pcStep }

/-! ### The return-address stack (42_call_return.md R130 to R132) -/

/-- `stack[j]` (00_scope.md R9). -/
def readSlot (s : State) (j : Nibble) : Word := s.stack[j.toNat]'j.isLt

/-- `stack[j] <- v` (00_scope.md R9). -/
def writeSlot (s : State) (j : Nibble) (v : Word) : State := { s with stack := s.stack.set j.toNat v j.isLt }

/-- The slot `sp` names, for `sp < 16` (42_call_return.md R130). -/
def slotIndex (sp : StackPtr) : Nibble := sp.setWidth 4

/-- `push(v)`, defined only for `sp < 16` (42_call_return.md R131). -/
def push (s : State) (v : Word) : State :=
  let s' := writeSlot s (slotIndex s.sp) v
  { s' with sp := s'.sp + 1 }

/-- `pop()`, defined only for `sp > 0`: the value of the released slot, which is not cleared, and the state
(42_call_return.md R132). -/
def pop (s : State) : Word × State :=
  let s' := { s with sp := s.sp - 1 }
  (readSlot s' (slotIndex s'.sp), s')

/-! ### How a step ends -/

/-- `halt`: stop the run normally; `cause` stays NONE (40_sequencer.md R96). -/
def halt (s : State) : Host.Outcome State Fault Refusal := .next { s with run := .halted }

/-- `raise c`: take the fatal condition `c` (60_exceptions.md R155). Writes made before it stand. -/
def raise (c : FaultCause) (s : State) : Host.Outcome State Fault Refusal :=
  .next { s with run := .faulted, cause := c }

/-- The state's `sp` and `pc` are values the spec admits; any other is an ill-formed state
(93_implementation_defined.md U13, 10_state.md R25, R28). -/
def admissible (s : State) : Bool := decide (s.sp ≤ Config.spFull) && decide (s.pc ≤ Config.pcMax)

end Sys2Proof.Machine
end

