-- ==== Sys2Proof/Machine/Arithmetic.lean ====
section
/-!
DEFINITION. ADD (41_arithmetic.md R113 to R115).
-/

namespace Sys2Proof.Machine

/-- ADD Vx, Vy (41_arithmetic.md R113): both operands are read first (R114), then the result is written, then the
flag (R115), so with `x = 15` the flag is what stays. -/
def execAdd (x y : Nibble) (s : State) : Host.Outcome State Fault Refusal :=
  let r := aluAdd (readReg s x) (readReg s y)
  .next (writeCarry (writeReg s x r.1) r.2)

end Sys2Proof.Machine
end

