-- ==== Sys2Proof/Machine/Control.lean ====
section
/-!
DEFINITION. CALL and RET (42_call_return.md R134 to R137).
-/

namespace Sys2Proof.Machine

/-- CALL nnn (42_call_return.md R135): a full stack overflows (R134); an `sp` above 16 is an ill-formed state
(93_implementation_defined.md U13), since push is "defined only for sp < 16" (R131). -/
def execCall (nnn : Addr) (s : State) : Host.Outcome State Fault Refusal :=
  if s.sp = Config.spFull then raise .stackOverflow s
  else if s.sp > Config.spFull then .refused .illFormedState
  else .next { push s s.pc with pc := callTarget nnn }

/-- RET (42_call_return.md R137): an empty stack underflows (R136); an `sp` above 16 is an ill-formed state
(93_implementation_defined.md U13). The popped value is used as it is. -/
def execRet (s : State) : Host.Outcome State Fault Refusal :=
  if s.sp = 0 then raise .stackUnderflow s
  else if s.sp > Config.spFull then .refused .illFormedState
  else
    let p := pop s
    .next { p.2 with pc := p.1 }

end Sys2Proof.Machine
end

