-- ==== Sys2Proof/Machine/System.lean ====
section
/-!
DEFINITION. HALT and UNKNOWN (40_sequencer.md R96, R97). As every meaning, they act on the state whose `pc` the
sequencer has already advanced (R93).
-/

namespace Sys2Proof.Machine

/-- HALT (40_sequencer.md R96). -/
def execHalt (s : State) : Host.Outcome State Fault Refusal := halt s

/-- An UNKNOWN word: ILLEGAL_INSTRUCTION, always (40_sequencer.md R97). -/
def execUnknown (s : State) : Host.Outcome State Fault Refusal := raise .illegalInstruction s

end Sys2Proof.Machine
end

