-- ==== Sys2Proof/Machine/Sequencer.lean ====
section
/-!
DEFINITION. The step of the core in full (40_sequencer.md R90, R91), and the placing of a word where the next step
fetches. Step.lean gives them their fixed names.
-/

namespace Sys2Proof.Machine

/-- The effect of a decoded variant on the state with the advanced pc (40_sequencer.md R91). -/
def dispatch (v : Variant) (s : State) : Host.Outcome State Fault Refusal :=
  match v with
  | .instr i => exec i s
  | .unknown _ _ _ _ => execUnknown s

/-- Fetch, decode, advance, dispatch (40_sequencer.md R91), in a RUNNING state. -/
def runInstruction (s : State) : Host.Outcome State Fault Refusal :=
  match fetchWord s with
  | none => raise .fetchOutOfRange s
  | some w => dispatch (decodeWord w) (advancePc s)

/-- One step: taken only while RUNNING (40_sequencer.md R90; log 1) and only in a state that is not ill-formed
(93_implementation_defined.md U13; log 2). -/
def takeStep (s : State) : Host.Outcome State Fault Refusal :=
  match s.run with
  | .running => if admissible s then runInstruction s else .refused .illFormedState
  | .idle => .fault (.notRunning .idle)
  | .halted => .fault (.notRunning .halted)
  | .faulted => .fault (.notRunning .faulted)

/-- The state made ready to take a step: RUNNING with no cause (10_state.md R32), as the host's run request leaves it
(70_reset_and_hazards.md R188), and at an address a fetch can read, the entry point if `pc` is none (log 5). -/
def readyToRun (s : State) : State :=
  { s with run := .running, cause := .none, pc := if s.pc > Config.lastFetch then Config.entry else s.pc }

/-- A word stored at `pc`, high byte first (20_memory.md R52), as the host's setup stores it. -/
def placeWord (s : State) (w : Word) : State :=
  memWrite (memWrite s (portAddr s.pc) (highByte w)) (portAddr (s.pc + 1)) (lowByte w)

end Sys2Proof.Machine
end

