-- ==== Sys2Proof/Machine/Step.lean ====
section
/-!
DEFINITION. The step function and the placing of the next instruction, under the names the host calls.
-/

namespace Sys2Proof.Machine

/-- One step of the core (40_sequencer.md R91). -/
def step (s : State) : Host.Outcome State Fault Refusal := takeStep s

/-- `s` with the instruction of `nbits` bits `w` (every bit above them 0) stored where `step` fetches next, and
RUNNING, so that the very next step runs it: it stands for the host's setup writes and run request (log 5). -/
def State.withFetchWord (s : State) (nbits w : Nat) : State :=
  placeWord (readyToRun s) (BitVec.ofNat 16 (w % 2 ^ nbits))

end Sys2Proof.Machine
end

