-- ==== Sys2Proof/Machine/HostOps.lean ====
section
/-!
DEFINITION. What the host does to the machine (70_reset_and_hazards.md R180, R186 to R190): requests that change
state, reads, and the fault address a host derives (60_exceptions.md R158). None is a step of the core (00_scope.md
R10), so none is called by `step` (log 7).
-/

namespace Sys2Proof.Machine

/-- The 2-bit code of a run state (10_state.md R31). -/
def RunState.code : RunState → BitVec 2
  | .idle => 0
  | .running => 1
  | .halted => 2
  | .faulted => 3

/-- The 3-bit code of a fault cause (10_state.md R32). -/
def FaultCause.code : FaultCause → BitVec 3
  | .none => 0
  | .fetchOutOfRange => 1
  | .illegalInstruction => 2
  | .stackOverflow => 3
  | .stackUnderflow => 4

/-- Reset: every element to its reset value, in every run state (70_reset_and_hazards.md R180; log 10). -/
def hostReset (_ : State) : Host.Outcome State Fault Refusal := .next State.reset

/-- A setup write of a memory byte: in IDLE, at an address of memory (70_reset_and_hazards.md R186). -/
def hostWriteMem (addr : Nat) (v : Byte) (s : State) : Host.Outcome State Fault Refusal :=
  if s.run = .idle ∧ addr < Config.memSize then .next (memWrite s (BitVec.ofNat 12 addr) v)
  else .refused .usageError

/-- A setup write of a general register: in IDLE, with an index of a register (70_reset_and_hazards.md R187). -/
def hostWriteReg (i : Nat) (v : Byte) (s : State) : Host.Outcome State Fault Refusal :=
  if s.run = .idle ∧ i < Config.nReg then .next (writeReg s (BitVec.ofNat 4 i) v)
  else .refused .usageError

/-- The run request: from IDLE to RUNNING (70_reset_and_hazards.md R188). -/
def hostRun (s : State) : Host.Outcome State Fault Refusal :=
  if s.run = .idle then .next { s with run := .running } else .refused .usageError

/-- A request of the host, answered. -/
def hostExec (q : HostRequest) (s : State) : Host.Outcome State Fault Refusal :=
  match q with
  | .reset => hostReset s
  | .writeMem addr v => hostWriteMem addr v s
  | .writeReg i v => hostWriteReg i v s
  | .run => hostRun s

/-- The value of an element of state as an unsigned number (00_scope.md R8). -/
def elementValue (e : StateElement) (s : State) : Nat :=
  match e with
  | .reg i => (readReg s (BitVec.ofNat 4 i)).toNat
  | .pc => s.pc.toNat
  | .sp => s.sp.toNat
  | .slot j => (readSlot s (BitVec.ofNat 4 j)).toNat
  | .run => s.run.code.toNat
  | .cause => s.cause.code.toNat
  | .memByte addr => (memRead s (BitVec.ofNat 12 addr)).toNat

/-- A host read: of an existing element, in any run state but RUNNING (70_reset_and_hazards.md R189, R190; log 8). -/
def hostRead (e : StateElement) (s : State) : Except Refusal Nat :=
  if s.run ≠ .running ∧ e.wf = true then .ok (elementValue e s) else .error .usageError

/-- The address of the instruction that faulted; the core keeps no register for it (60_exceptions.md R158). -/
def faultPc (s : State) : Option Word :=
  match s.cause with
  | .none => none
  | .fetchOutOfRange => some s.pc
  | .illegalInstruction => some (s.pc - 2)
  | .stackOverflow => some (s.pc - 2)
  | .stackUnderflow => some (s.pc - 2)

/-- The word that faulted, for the three causes after a fetch (60_exceptions.md R158). -/
def faultWord (s : State) : Option Word :=
  match s.cause with
  | .none => none
  | .fetchOutOfRange => none
  | .illegalInstruction => some (joinBytes (memRead s (portAddr (s.pc - 2))) (memRead s (portAddr (s.pc - 2 + 1))))
  | .stackOverflow => some (joinBytes (memRead s (portAddr (s.pc - 2))) (memRead s (portAddr (s.pc - 2 + 1))))
  | .stackUnderflow => some (joinBytes (memRead s (portAddr (s.pc - 2))) (memRead s (portAddr (s.pc - 2 + 1))))

end Sys2Proof.Machine
end

