-- ==== Sys2Proof/Safety.lean ====
section
/-!
DEFINITION. What counts as a legal state and a safe run, in the terms the statements use: the invariants of
10_state.md R36, the stop states (60_exceptions.md R164), agreement of two states up to a part no control flow
depends on, and a run of the core.
-/

namespace Sys2Proof.Machine

/-- The invariants every step preserves (10_state.md R36). -/
structure CoreInv (s : State) : Prop where
  sp_le : s.sp.toNat ≤ 16
  pc_le : s.pc.toNat ≤ 0x1000
  slot_le : ∀ j : Nibble, (readSlot s j).toNat ≤ 0x1000
  cause_iff : s.cause = .none ↔ s.run ≠ .faulted

/-- The core stopped: HALTED or FAULTED (60_exceptions.md R164). -/
def Stopped (s : State) : Prop := s.run = .halted ∨ s.run = .faulted

/-- The same state but for the general registers. -/
structure AgreeButRegs (s t : State) : Prop where
  pc_eq : t.pc = s.pc
  stack_eq : t.stack = s.stack
  sp_eq : t.sp = s.sp
  run_eq : t.run = s.run
  cause_eq : t.cause = s.cause
  mem_eq : t.mem = s.mem

/-- The same state but for the stack slots at or above `sp`, the stale slots of 10_state.md R29. -/
structure AgreeButStaleSlots (s t : State) : Prop where
  regs_eq : t.regs = s.regs
  pc_eq : t.pc = s.pc
  sp_eq : t.sp = s.sp
  live_eq : ∀ j : Nibble, j.toNat < s.sp.toNat → readSlot t j = readSlot s j
  run_eq : t.run = s.run
  cause_eq : t.cause = s.cause
  mem_eq : t.mem = s.mem

/-- Two answers of a step agree: both a next state, related by `R`, or the same fault, or the same refusal. -/
def OutcomesAgree (R : State → State → Prop) : Host.Outcome State Fault Refusal → Host.Outcome State Fault Refusal → Prop
  | .next s, .next t => R s t
  | .fault f, .fault g => f = g
  | .refused r, .refused q => r = q
  | _, _ => False

/-- `k` steps of the core from `s` end in `t`, each step answering a next state. -/
def RunsTo (k : Nat) (s t : State) : Prop := Host.Core.run Sys2Proof.core k s = .next t

/-- The host's requests, each admitted, lead from `s` to `t` (70_reset_and_hazards.md R180, R186 to R190). -/
def HostSession : List HostRequest → State → State → Prop
  | [], s, t => s = t
  | q :: qs, s, t => ∃ u, hostExec q s = .next u ∧ HostSession qs u t

end Sys2Proof.Machine
end

