-- ==== Sys2Proof/Certificates/Slice0/Obligations.lean ====
section
/-!
DEFINITION. The statements for the provers, each about the machine and none about a program. A step's premises on `sp`
and `pc` rule out the ill-formed states of 93_implementation_defined.md U13 (log 2), which `CoreInv` excludes
(`Obligations.StepPreservesCoreInv`).
-/

open Sys2Proof Sys2Proof.Machine

/-! ### Encoding (30_encoding.md) -/

/-- A few words written out from the spec (95_test_vectors.md L1-1 to L1-4, T-DEC-8, T-DEC-10, T-DEC-15). -/
def Obligations.SourceWordsDecodeToTheirVariants : Prop :=
  decodeWord 0x0000 = .instr .halt ∧ decodeWord 0x00EE = .instr .ret ∧ decodeWord 0x2100 = .instr (.call 0x100) ∧
  decodeWord 0x8014 = .instr (.add 0 1) ∧ decodeWord 0x8A34 = .instr (.add 10 3) ∧
  decodeWord 0x00E0 = .unknown 0 0 0xE 0 ∧ decodeWord 0x8015 = .unknown 8 0 1 5

/-- R73: the classification table, by mask and match, with every payload given arithmetically. -/
def Obligations.DecoderFollowsThePatternTable : Prop :=
  ∀ w : Word,
    (w = 0x0000 → decodeWord w = .instr .halt) ∧
    (w = 0x00EE → decodeWord w = .instr .ret) ∧
    (w &&& 0xF000 = 0x2000 → decodeWord w = .instr (.call (BitVec.ofNat 12 w.toNat))) ∧
    (w &&& 0xF00F = 0x8004 →
      decodeWord w = .instr (.add (BitVec.ofNat 4 (w.toNat / 256)) (BitVec.ofNat 4 (w.toNat / 16)))) ∧
    (w ≠ 0x0000 → w ≠ 0x00EE → w &&& 0xF000 ≠ 0x2000 → w &&& 0xF00F ≠ 0x8004 →
      decodeWord w = .unknown (BitVec.ofNat 4 (w.toNat / 4096)) (BitVec.ofNat 4 (w.toNat / 256))
        (BitVec.ofNat 4 (w.toNat / 16)) (BitVec.ofNat 4 w.toNat))

/-- R76: splitting a word into its four fields and joining them again gives the word, in both spellings of the rule. -/
def Obligations.FieldSplitIsLossless : Prop :=
  ∀ w : Word,
    fieldC w ++ fieldX w ++ fieldY w ++ fieldD w = w ∧
    ((fieldC w).setWidth 16 <<< 12) ||| ((fieldX w).setWidth 16 <<< 8) ||| ((fieldY w).setWidth 16 <<< 4)
      ||| (fieldD w).setWidth 16 = w

/-- R80 (which the spec marks as derived from R71 and R73): the four encodings, and decoding any instruction's word,
or its two bytes high byte first, gives the instruction back with every operand. -/
def Obligations.DecodeOfEncodeIsTheInstruction : Prop :=
  encode .halt = 0x0000 ∧ encode .ret = 0x00EE ∧
  (∀ x y : Nibble, encode (.add x y) = 0x8004 ||| (x.setWidth 16 <<< 8) ||| (y.setWidth 16 <<< 4)) ∧
  (∀ nnn : Addr, encode (.call nnn) = 0x2000 ||| nnn.setWidth 16) ∧
  ∀ i : Instr, decodeWord (encode i) = .instr i ∧
    ∃ hi lo : Byte, encodeBytes i = [hi, lo] ∧ (encode i).toNat = 256 * hi.toNat + lo.toNat ∧
      decodeBytes hi lo = .instr i

/-- Words and well-formed variants correspond one to one, UNKNOWN words included (from 30_encoding.md R75 and R76):
the decoder never calls a word of the table unknown, drops no bit, and each word has one variant. -/
def Obligations.WordsAndVariantsCorrespond : Prop :=
  (∀ w : Word, (decodeWord w).wf = true ∧ encodeVariant (decodeWord w) = w) ∧
  ∀ v : Variant, v.wf = true → decodeWord (encodeVariant v) = v

/-- R74 (which the spec marks as derived): the patterns are pairwise disjoint, and how many words each class has. -/
def Obligations.DecodeClassesAreDisjointAndCounted : Prop :=
  (∀ w : Word, w &&& 0xF000 = 0x2000 → w &&& 0xF00F ≠ 0x8004 ∧ w ≠ 0x0000 ∧ w ≠ 0x00EE) ∧
  (∀ w : Word, w &&& 0xF00F = 0x8004 → w ≠ 0x0000 ∧ w ≠ 0x00EE) ∧
  Set.ncard {w : Word | decodeWord w = .instr .halt} = 1 ∧
  Set.ncard {w : Word | decodeWord w = .instr .ret} = 1 ∧
  Set.ncard {w : Word | ∃ nnn, decodeWord w = .instr (.call nnn)} = 4096 ∧
  Set.ncard {w : Word | ∃ x y, decodeWord w = .instr (.add x y)} = 256 ∧
  Set.ncard {w : Word | ∃ c x y d, decodeWord w = .unknown c x y d} = 61182

/-! ### Fetch and step (20_memory.md, 40_sequencer.md) -/

/-- At every address a fetch admits, the byte at the lower address is the word's high byte (20_memory.md sections 2 and
3). That odd addresses are admitted is decision D5 of 92_eei_decisions.md (20_memory.md section 4: "no alignment fault
exists"), which the spec calls its own choice (log 11, unsafe for D5). -/
def Obligations.FetchIsBigEndianAtEveryAddress : Prop :=
  ∀ s : State, s.pc.toNat ≤ 0xFFE →
    ∃ w : Word, fetchWord s = some w ∧
      w.toNat = 256 * (Memory.read s.mem s.pc.toNat).toNat + (Memory.read s.mem (s.pc.toNat + 1)).toNat

/-- R93: a step runs the decoded instruction, or the UNKNOWN word's effect, on the state whose pc has been advanced by 2
(without a wrap) and which is otherwise as the step found it. -/
def Obligations.StepRunsTheDecodedInstructionAfterTheAdvance : Prop :=
  ∀ s : State, s.run = .running → s.sp.toNat ≤ 16 → s.pc.toNat ≤ 0xFFE →
    (s.pc + 2).toNat = s.pc.toNat + 2 ∧
    (∀ i : Instr, decodeBytes (Memory.read s.mem s.pc.toNat) (Memory.read s.mem (s.pc.toNat + 1)) = .instr i →
      step s = exec i { s with pc := s.pc + 2 }) ∧
    (∀ c x y d : Nibble,
      decodeBytes (Memory.read s.mem s.pc.toNat) (Memory.read s.mem (s.pc.toNat + 1)) = .unknown c x y d →
      step s = execUnknown { s with pc := s.pc + 2 })

/-- An UNKNOWN word faults with ILLEGAL_INSTRUCTION and writes nothing else but the advanced pc. Rests on decisions D7, D8
and D9 of 92_eei_decisions.md ("Executing an UNKNOWN word raises ILLEGAL_INSTRUCTION"). -/
def Obligations.UnknownWordRaisesIllegalInstruction : Prop :=
  ∀ (s : State) (c x y d : Nibble), s.run = .running → s.sp.toNat ≤ 16 → s.pc.toNat ≤ 0xFFE →
    decodeBytes (Memory.read s.mem s.pc.toNat) (Memory.read s.mem (s.pc.toNat + 1)) = .unknown c x y d →
    step s = .next { s with pc := s.pc + 2, run := .faulted, cause := .illegalInstruction }

/-- A fetch past the last whole word faults and leaves pc as it was. Rests on decision D4 of 92_eei_decisions.md ("A fetch
at `pc > 0xFFE` raises FETCH_OUT_OF_RANGE before any read; `pc` is unchanged"). -/
def Obligations.FetchPastTheEndRaisesFetchOutOfRange : Prop :=
  ∀ s : State, s.run = .running → s.sp.toNat ≤ 16 → 0xFFE < s.pc.toNat → s.pc.toNat ≤ 0x1000 →
    step s = .next { s with run := .faulted, cause := .fetchOutOfRange }

/-- No step is taken outside RUNNING (00_scope.md R10, 40_sequencer.md R90; decisions D1, D10). That such a step answers
the fault `notRunning` is the model's choice (log 1). -/
def Obligations.NoStepIsTakenOutsideRunning : Prop :=
  ∀ s : State, s.run ≠ .running → step s = .fault (.notRunning s.run)

/-- A RUNNING core refuses exactly the ill-formed states of 93_implementation_defined.md U13, and CALL and RET refuse an
`sp` above 16; the form of the refusal is the model's choice (log 2). -/
def Obligations.ExactlyIllFormedStatesAreRefused : Prop :=
  (∀ s : State, s.run = .running →
    (step s = .refused .illFormedState ↔ 16 < s.sp.toNat ∨ 0x1000 < s.pc.toNat)) ∧
  ∀ (s : State) (nnn : Addr), 16 < s.sp.toNat →
    exec (.call nnn) s = .refused .illFormedState ∧ exec .ret s = .refused .illFormedState

/-- From every legal RUNNING state a step completes with the core RUNNING, HALTED or FAULTED with a cause (00_scope.md R10,
which cites decision D10; the status fields are decision D9). -/
def Obligations.StepEndsInOneOfThreeOutcomes : Prop :=
  ∀ s : State, CoreInv s → s.run = .running →
    ∃ t : State, step s = .next t ∧
      ((t.run = .running ∧ t.cause = .none) ∨ (t.run = .halted ∧ t.cause = .none) ∨
       (t.run = .faulted ∧ t.cause ≠ .none))

/-- The next pc as a function of the variant, `sp` and the popped slot (40_sequencer.md R94, which the spec marks as
derived), and so never of a general register. -/
def Obligations.NextPcFollowsTheSequencerTable : Prop :=
  ∀ s t : State, step s = .next t →
    t.pc =
      if 0xFFE < s.pc.toNat then s.pc
      else
        match decodeBytes (Memory.read s.mem s.pc.toNat) (Memory.read s.mem (s.pc.toNat + 1)) with
        | .instr (.call nnn) => if s.sp = 16 then s.pc + 2 else nnn.setWidth 16
        | .instr .ret => if s.sp = 0 then s.pc + 2 else readSlot s (BitVec.ofNat 4 (s.sp.toNat - 1))
        | .instr .halt => s.pc + 2
        | .instr (.add _ _) => s.pc + 2
        | .unknown _ _ _ _ => s.pc + 2

/-! ### HALT -/

/-- R96: HALT moves the run state to HALTED and nothing else; in a step its pc ends at `A + 2`. -/
def Obligations.HaltEndsTheRunAndChangesNothingElse : Prop :=
  (∀ s : State, exec .halt s = .next { s with run := .halted }) ∧
  ∀ s : State, s.run = .running → s.sp.toNat ≤ 16 → s.pc.toNat ≤ 0xFFE →
    Memory.read s.mem s.pc.toNat = 0 → Memory.read s.mem (s.pc.toNat + 1) = 0 →
    step s = .next { s with pc := s.pc + 2, run := .halted }

/-! ### ADD (41_arithmetic.md) -/

/-- R110: the sum is the 9-bit sum's low 8 bits and the carry is its bit 8, which is 1 exactly when `a + b > 255`. -/
def Obligations.AluAddIsUnsignedAdditionWithCarry : Prop :=
  ∀ a b : Byte,
    (aluAdd a b).1.toNat = (a.toNat + b.toNat) % 256 ∧
    (aluAdd a b).2.toNat = (a.toNat + b.toNat) / 256 ∧
    ((aluAdd a b).2 = 1 ↔ 255 < a.toNat + b.toNat)

/-- The arithmetic laws of 41_arithmetic.md R111, which the spec marks as derived: commutative, and no value is lost. -/
def Obligations.AluAddIsCommutativeAndLosesNothing : Prop :=
  ∀ a b : Byte, aluAdd a b = aluAdd b a ∧
    a.toNat + b.toNat = 256 * (aluAdd a b).2.toNat + (aluAdd a b).1.toNat

/-- R112 to R115: ADD of any two registers, in any state, completes; both operands are the registers' old values; the sum
goes to register x unless that is VF; VF ends as the unsigned carry and nothing else, whatever x and y are; and nothing
else changes. Its word is the one R113 gives. -/
def Obligations.AddWritesTheSumThenTheCarry : Prop :=
  ∀ (s : State) (x y : Nibble),
    decodeWord (0x8004 ||| (x.setWidth 16 <<< 8) ||| (y.setWidth 16 <<< 4)) = .instr (.add x y) ∧
    ∃ t : State, exec (.add x y) s = .next t ∧
      (x ≠ 15 → (readReg t x).toNat = ((readReg s x).toNat + (readReg s y).toNat) % 256) ∧
      (readReg t 15).toNat = (if 255 < (readReg s x).toNat + (readReg s y).toNat then 1 else 0) ∧
      (∀ i : Nibble, i ≠ x → i ≠ 15 → readReg t i = readReg s i) ∧
      t.pc = s.pc ∧ t.sp = s.sp ∧ (∀ j : Nibble, readSlot t j = readSlot s j) ∧ t.run = s.run ∧ t.cause = s.cause ∧
      ∀ a : Addr, memRead t a = memRead s a

/-! ### CALL and RET (42_call_return.md) -/

/-- R131 and R132: a push stores its value in the slot `sp` names and adds 1 to `sp`; a pop takes 1 from `sp` and answers
the slot it released, which keeps its value; neither touches another slot or element. -/
def Obligations.PushAndPopFollowTheStackDiscipline : Prop :=
  (∀ (s : State) (v : Word), s.sp.toNat < 16 →
    readSlot (push s v) (BitVec.ofNat 4 s.sp.toNat) = v ∧ (push s v).sp.toNat = s.sp.toNat + 1 ∧
    (∀ j : Nibble, j.toNat ≠ s.sp.toNat → readSlot (push s v) j = readSlot s j) ∧
    (∀ i : Nibble, readReg (push s v) i = readReg s i) ∧ (push s v).pc = s.pc ∧ (push s v).run = s.run ∧
    (push s v).cause = s.cause ∧ ∀ a : Addr, memRead (push s v) a = memRead s a) ∧
  ∀ s : State, 0 < s.sp.toNat → s.sp.toNat ≤ 16 →
    (pop s).1 = readSlot s (BitVec.ofNat 4 (s.sp.toNat - 1)) ∧ (pop s).2.sp.toNat = s.sp.toNat - 1 ∧
    (∀ j : Nibble, readSlot (pop s).2 j = readSlot s j) ∧
    (∀ i : Nibble, readReg (pop s).2 i = readReg s i) ∧ (pop s).2.pc = s.pc ∧ (pop s).2.run = s.run ∧
    (pop s).2.cause = s.cause ∧ ∀ a : Addr, memRead (pop s).2 a = memRead s a

/-- CALL with room on the stack completes: it pushes the pc it finds, jumps to its target, and changes nothing else. Its
word is the one 42_call_return.md R135 gives. The boundary `sp = 16` is the next statement's. -/
def Obligations.CallPushesThePcAndJumps : Prop :=
  ∀ (s : State) (nnn : Addr), s.sp.toNat < 16 →
    decodeWord (0x2000 ||| nnn.setWidth 16) = .instr (.call nnn) ∧
    ∃ t : State, exec (.call nnn) s = .next t ∧
      t.pc.toNat = nnn.toNat ∧ t.sp.toNat = s.sp.toNat + 1 ∧
      readSlot t (BitVec.ofNat 4 s.sp.toNat) = s.pc ∧
      (∀ j : Nibble, j.toNat ≠ s.sp.toNat → readSlot t j = readSlot s j) ∧
      (∀ i : Nibble, readReg t i = readReg s i) ∧ t.run = s.run ∧ t.cause = s.cause ∧
      ∀ a : Addr, memRead t a = memRead s a

/-- CALL on a full stack faults with STACK_OVERFLOW and writes nothing else. Rests on decision D6 of 92_eei_decisions.md
("CALL at `sp = 16` raises STACK_OVERFLOW with no write; 16 nested CALLs succeed"). -/
def Obligations.CallOnAFullStackOverflows : Prop :=
  ∀ (s : State) (nnn : Addr), s.sp.toNat = 16 →
    exec (.call nnn) s = .next { s with run := .faulted, cause := .stackOverflow }

/-- R133: the return address a CALL at `A` pushes is `A + 2`. -/
def Obligations.CallPushesTheAddressAfterIt : Prop :=
  ∀ (s : State) (nnn : Addr), s.run = .running → s.sp.toNat < 16 → s.pc.toNat ≤ 0xFFE →
    decodeBytes (Memory.read s.mem s.pc.toNat) (Memory.read s.mem (s.pc.toNat + 1)) = .instr (.call nnn) →
    ∃ t : State, step s = .next t ∧ (readSlot t (BitVec.ofNat 4 s.sp.toNat)).toNat = s.pc.toNat + 2 ∧
      t.pc.toNat = nnn.toNat ∧ t.sp.toNat = s.sp.toNat + 1 ∧ t.run = .running

/-- R136 and R137: RET with a live entry completes, takes the newest return address into pc as it is, releases its slot
without clearing it and changes nothing else; with an empty stack it faults with STACK_UNDERFLOW and writes nothing else.
(`sp` above 16 is ill-formed: `Obligations.ExactlyIllFormedStatesAreRefused`.) -/
def Obligations.RetPopsTheReturnAddressOrUnderflows : Prop :=
  decodeWord 0x00EE = .instr .ret ∧
  (∀ s : State, 0 < s.sp.toNat → s.sp.toNat ≤ 16 →
    ∃ t : State, exec .ret s = .next t ∧
      t.pc = readSlot s (BitVec.ofNat 4 (s.sp.toNat - 1)) ∧ t.sp.toNat = s.sp.toNat - 1 ∧
      (∀ j : Nibble, readSlot t j = readSlot s j) ∧
      (∀ i : Nibble, readReg t i = readReg s i) ∧ t.run = s.run ∧ t.cause = s.cause ∧
      ∀ a : Addr, memRead t a = memRead s a) ∧
  ∀ s : State, s.sp.toNat = 0 →
    exec .ret s = .next { s with run := .faulted, cause := .stackUnderflow }

/-- After a CALL, a RET in any state with the `sp` and live entries the CALL left goes to the address after the CALL, with
`sp` and the older entries as before the CALL (42_call_return.md R139, which the spec marks as derived). -/
def Obligations.RetUndoesCall : Prop :=
  ∀ (s : State) (nnn : Addr), s.sp.toNat < 16 →
    ∃ t : State, exec (.call nnn) s = .next t ∧
      ∀ u : State, u.sp = t.sp → (∀ j : Nibble, j.toNat < t.sp.toNat → readSlot u j = readSlot t j) →
        ∃ v : State, exec .ret u = .next v ∧ v.pc = s.pc ∧ v.sp = s.sp ∧
          ∀ j : Nibble, j.toNat < s.sp.toNat → readSlot v j = readSlot s j

/-- Only a CALL, which adds 1 to `sp` and writes slot `sp`, and a RET, which takes 1 from `sp` and writes no slot, change
the return-address stack in a step (10_state.md R27 and R28, whose 5-bit width is decision D3). -/
def Obligations.OnlyCallAndRetChangeTheStack : Prop :=
  ∀ s t : State, step s = .next t → (t.sp ≠ s.sp ∨ ∃ j : Nibble, readSlot t j ≠ readSlot s j) →
    (∃ nnn : Addr,
      decodeBytes (Memory.read s.mem s.pc.toNat) (Memory.read s.mem (s.pc.toNat + 1)) = .instr (.call nnn) ∧
      t.sp.toNat = s.sp.toNat + 1 ∧ ∀ j : Nibble, j.toNat ≠ s.sp.toNat → readSlot t j = readSlot s j) ∨
    (decodeBytes (Memory.read s.mem s.pc.toNat) (Memory.read s.mem (s.pc.toNat + 1)) = .instr .ret ∧
      s.sp.toNat = t.sp.toNat + 1 ∧ ∀ j : Nibble, readSlot t j = readSlot s j)

/-- A slot at or above `sp` has no effect on a step: two states that differ only there take steps that agree and again
differ only there (10_state.md R29, which the spec marks as derived). -/
def Obligations.StaleSlotsAffectNoStep : Prop :=
  ∀ s t : State, AgreeButStaleSlots s t → OutcomesAgree AgreeButStaleSlots (step s) (step t)

/-- No register value affects control flow: two states that differ only in registers take steps that agree and again
differ only in registers (10_state.md R23: "control flow never depends on any register value"). -/
def Obligations.RegistersNeverAffectControlFlow : Prop :=
  ∀ s t : State, AgreeButRegs s t → OutcomesAgree AgreeButRegs (step s) (step t)

/-! ### Memory (20_memory.md) -/

/-- An instruction's effect neither reads nor writes memory; a step depends only on the two bytes at pc and writes none
(20_memory.md section 1); of the host's requests only a setup write and reset change a byte. The reset exception is not
in that section: it is 70_reset_and_hazards.md section 1, decision D15 of 92_eei_decisions.md, and the model's reading
that reset is accepted while RUNNING (log 10, DEDUCED). -/
def Obligations.NoInstructionReadsOrWritesMemory : Prop :=
  (∀ (i : Instr) (s t : State) (m : Memory), exec i s = .next t →
    t.mem = s.mem ∧ exec i { s with mem := m } = .next { t with mem := m }) ∧
  (∀ (s t : State) (m : Memory), Memory.read m s.pc.toNat = Memory.read s.mem s.pc.toNat →
    Memory.read m (s.pc.toNat + 1) = Memory.read s.mem (s.pc.toNat + 1) → step s = .next t →
    t.mem = s.mem ∧ step { s with mem := m } = .next { t with mem := m }) ∧
  ∀ (q : HostRequest) (s t : State) (a : Addr), hostExec q s = .next t → memRead t a ≠ memRead s a →
    q = .reset ∨ ∃ (addr : Nat) (v : Byte), q = .writeMem addr v

/-- Throughout a run every byte is the one the host left before its run request (20_memory.md R59's last sentence). -/
def Obligations.MemoryIsConstantDuringARun : Prop :=
  ∀ (s u t : State) (k : Nat), hostExec .run s = .next u → RunsTo k u t → ∀ a : Addr, memRead t a = memRead s a

/-- Memory keeps its canonical form at every step and at every host request. The form is the model's choice (log 6). -/
def Obligations.MemoryStaysCanonical : Prop :=
  (∀ s t : State, Memory.wf s.mem = true → step s = .next t → Memory.wf t.mem = true) ∧
  ∀ (q : HostRequest) (s t : State), Memory.wf s.mem = true → hostExec q s = .next t → Memory.wf t.mem = true

/-! ### Faults (60_exceptions.md) -/

/-- A step that faults writes the run state, the cause and, after a fetch, the advanced pc, and nothing else
(60_exceptions.md R155 and R156; decisions D8 and D9). -/
def Obligations.FaultsArePrecise : Prop :=
  ∀ s t : State, step s = .next t → t.run = .faulted →
    t.regs = s.regs ∧ t.stack = s.stack ∧ t.sp = s.sp ∧ t.mem = s.mem ∧
    ((t.cause = .fetchOutOfRange ∧ t.pc = s.pc) ∨
     ((t.cause = .illegalInstruction ∨ t.cause = .stackOverflow ∨ t.cause = .stackUnderflow) ∧ t.pc = s.pc + 2))

/-- Each cause is raised exactly under its condition, the fetch check first (60_exceptions.md R150 to R154 and R159;
decisions D4, D6, D7 and D9). -/
def Obligations.EachCauseHasItsCondition : Prop :=
  ∀ s t : State, s.cause = .none → step s = .next t →
    (t.cause = .fetchOutOfRange ↔ 0xFFE < s.pc.toNat) ∧
    (t.cause = .illegalInstruction ↔ s.pc.toNat ≤ 0xFFE ∧
      ∃ c x y d : Nibble,
        decodeBytes (Memory.read s.mem s.pc.toNat) (Memory.read s.mem (s.pc.toNat + 1)) = .unknown c x y d) ∧
    (t.cause = .stackOverflow ↔ s.pc.toNat ≤ 0xFFE ∧ s.sp.toNat = 16 ∧
      ∃ nnn : Addr,
        decodeBytes (Memory.read s.mem s.pc.toNat) (Memory.read s.mem (s.pc.toNat + 1)) = .instr (.call nnn)) ∧
    (t.cause = .stackUnderflow ↔ s.pc.toNat ≤ 0xFFE ∧ s.sp.toNat = 0 ∧
      decodeBytes (Memory.read s.mem s.pc.toNat) (Memory.read s.mem (s.pc.toNat + 1)) = .instr .ret)

/-- The address and the word that faulted are functions of the state the fault left (60_exceptions.md R158, which the spec
marks as derived; decision D17). -/
def Obligations.FaultAddressAndWordAreRecoverable : Prop :=
  ∀ s t : State, step s = .next t → t.run = .faulted →
    faultPc t = some s.pc ∧ faultWord t = fetchWord s

/-- HALTED and FAULTED are left only by reset: no step, and no other host request, answers a next state (60_exceptions.md
R160 and R164; decisions D10 and D15). -/
def Obligations.OnlyResetLeavesAStopState : Prop :=
  ∀ s : State, Stopped s →
    (∀ t : State, step s ≠ .next t) ∧ hostExec .reset s = .next State.reset ∧
    ∀ (q : HostRequest) (t : State), hostExec q s = .next t → q = .reset

/-! ### Invariants and the run -/

/-- The invariants of 10_state.md R36 hold at reset, and reset memory is canonical (decision D9, log 6). -/
def Obligations.ResetSatisfiesCoreInv : Prop :=
  CoreInv State.reset ∧ Memory.wf State.reset.mem = true

/-- Every step preserves the invariants of 10_state.md R36 (which the spec marks as derived): `sp` at most 16, `pc` and
every slot at most 0x1000, and a cause exactly when FAULTED. -/
def Obligations.StepPreservesCoreInv : Prop :=
  ∀ s t : State, CoreInv s → step s = .next t → CoreInv t

/-- So does every host request (from 10_state.md R36 and 70_reset_and_hazards.md R180, R186 to R188). -/
def Obligations.HostRequestsPreserveCoreInv : Prop :=
  ∀ (q : HostRequest) (s t : State), CoreInv s → hostExec q s = .next t → CoreInv t

/-- Every run ends: from any legal RUNNING state the core reaches HALTED or FAULTED after finitely many steps
(40_sequencer.md R99, which the spec marks as derived: "This is a law a model can prove"). -/
def Obligations.EveryRunEnds : Prop :=
  ∀ s : State, CoreInv s → s.run = .running → ∃ (k : Nat) (t : State), RunsTo k s t ∧ Stopped t

/-! ### The host (70_reset_and_hazards.md) -/

/-- Reset is accepted in every state and zeroes every element (70_reset_and_hazards.md R180, 10_state.md R35; decisions D9
and D15). -/
def Obligations.ResetZeroesEveryElement : Prop :=
  ∀ s : State, ∃ t : State, hostExec .reset s = .next t ∧
    (∀ i : Nibble, readReg t i = 0) ∧ t.pc = 0 ∧ (∀ j : Nibble, readSlot t j = 0) ∧ t.sp = 0 ∧
    (∀ a : Addr, memRead t a = 0) ∧ t.run = .idle ∧ t.cause = .none

/-- A setup write of a memory byte is admitted exactly in IDLE at an address of memory, and changes that byte alone; any
other is refused (70_reset_and_hazards.md R186 and R190; decision D12). -/
def Obligations.SetupWriteOfAMemoryByte : Prop :=
  ∀ (s : State) (addr : Nat) (v : Byte), Memory.wf s.mem = true →
    (s.run = .idle → addr < 4096 →
      ∃ t : State, hostExec (.writeMem addr v) s = .next t ∧ Memory.read t.mem addr = v ∧
        (∀ b : Nat, b ≠ addr → Memory.read t.mem b = Memory.read s.mem b) ∧
        t.regs = s.regs ∧ t.pc = s.pc ∧ t.stack = s.stack ∧ t.sp = s.sp ∧ t.run = s.run ∧ t.cause = s.cause) ∧
    (s.run ≠ .idle ∨ 4096 ≤ addr → hostExec (.writeMem addr v) s = .refused .usageError)

/-- A setup write of a register is admitted exactly in IDLE with an index of a register, VF among them, and changes that
register alone; any other is refused (70_reset_and_hazards.md R187 and R190; decision D12). -/
def Obligations.SetupWriteOfARegister : Prop :=
  ∀ (s : State) (i : Nat) (v : Byte),
    (s.run = .idle → i < 16 →
      ∃ t : State, hostExec (.writeReg i v) s = .next t ∧ readReg t (BitVec.ofNat 4 i) = v ∧
        (∀ j : Nibble, j.toNat ≠ i → readReg t j = readReg s j) ∧
        t.pc = s.pc ∧ t.stack = s.stack ∧ t.sp = s.sp ∧ t.run = s.run ∧ t.cause = s.cause ∧ t.mem = s.mem) ∧
    (s.run ≠ .idle ∨ 16 ≤ i → hostExec (.writeReg i v) s = .refused .usageError)

/-- The run state changes only as 10_state.md R31 says (decision D9): a step from RUNNING never leads to IDLE; of the
host's requests only run, from IDLE, and reset change it; a run request outside IDLE is refused (decision D10). -/
def Obligations.RunStateChangesOnlyAsAdmitted : Prop :=
  (∀ s t : State, step s = .next t → s.run = .running ∧ t.run ≠ .idle) ∧
  (∀ (q : HostRequest) (s t : State), hostExec q s = .next t → t.run ≠ s.run →
    (q = .run ∧ s.run = .idle ∧ t.run = .running) ∨ (q = .reset ∧ t.run = .idle)) ∧
  (∀ s : State, s.run = .idle → hostExec .run s = .next { s with run := .running }) ∧
  ∀ s : State, s.run ≠ .idle → hostExec .run s = .refused .usageError

/-- Whatever the host does after reset, the core is still at the entry point with an empty, zero stack and no cause, in
IDLE or RUNNING: so every run starts there (70_reset_and_hazards.md R187's last sentence, 10_state.md R35; decision D12). -/
def Obligations.EveryRunStartsAtTheEntryPoint : Prop :=
  ∀ (qs : List HostRequest) (t : State), HostSession qs State.reset t →
    t.pc = 0 ∧ t.sp = 0 ∧ (∀ j : Nibble, readSlot t j = 0) ∧ t.cause = .none ∧ (t.run = .idle ∨ t.run = .running)

/-- The host reads any existing element outside RUNNING, status as its code, and is refused otherwise
(70_reset_and_hazards.md R189 and R190; decisions D9, D11 and D18; the answer's form is the model's, log 8). -/
def Obligations.HostReadsEveryElementOutsideRunning : Prop :=
  ∀ s : State,
    (s.run = .running → ∀ e : StateElement, hostRead e s = .error .usageError) ∧
    (s.run ≠ .running →
      (∀ i : Nibble, hostRead (.reg i.toNat) s = .ok (readReg s i).toNat) ∧
      (∀ j : Nibble, hostRead (.slot j.toNat) s = .ok (readSlot s j).toNat) ∧
      (∀ a : Addr, hostRead (.memByte a.toNat) s = .ok (memRead s a).toNat) ∧
      hostRead .pc s = .ok s.pc.toNat ∧ hostRead .sp s = .ok s.sp.toNat ∧
      hostRead .run s = .ok (match s.run with | .idle => 0 | .running => 1 | .halted => 2 | .faulted => 3) ∧
      hostRead .cause s = .ok (match s.cause with
        | .none => 0 | .fetchOutOfRange => 1 | .illegalInstruction => 2 | .stackOverflow => 3 | .stackUnderflow => 4)) ∧
    ∀ n : Nat, (16 ≤ n → hostRead (.reg n) s = .error .usageError ∧ hostRead (.slot n) s = .error .usageError) ∧
      (4096 ≤ n → hostRead (.memByte n) s = .error .usageError)

/-- The model's own placing of a word (log 5): the opcode-table word of any instruction is read as it, and the very next
step runs it, with the pc advanced past it. -/
def Obligations.PlacedInstructionRunsNext : Prop :=
  ∀ (s : State) (i : Instr), s.sp.toNat ≤ 16 → Memory.wf s.mem = true →
    decodeTableWord 16 (encode i).toNat = some i ∧
    step (s.withFetchWord 16 (encode i).toNat) =
      exec i { s.withFetchWord 16 (encode i).toNat with pc := (if s.pc.toNat ≤ 0xFFE then s.pc else 0) + 2 }
end

