-- ==== Sys2Proof/Laws/Decode.lean ====
section
/-!
SUPPORT. The fields of a joined word, the two patterns with operands as field equations, and the word's two bytes:
what proofs about decoding cite instead of unfolding bits.
-/

namespace Sys2Proof

/-- The fields of four joined nibbles are the nibbles (30_encoding.md R71). -/
theorem fields_of_nibbles (c x y d : Nibble) :
    fieldC (c ++ x ++ y ++ d : Word) = c ∧ fieldX (c ++ x ++ y ++ d : Word) = x ∧
    fieldY (c ++ x ++ y ++ d : Word) = y ∧ fieldD (c ++ x ++ y ++ d : Word) = d := by
  refine ⟨?_, ?_, ?_, ?_⟩ <;>
  · apply BitVec.eq_of_getLsbD_eq
    intro i hi
    simp only [fieldC, fieldX, fieldY, fieldD, BitVec.getLsbD_append, BitVec.getLsbD_extractLsb']
    interval_cases i <;> simp

/-- The fields of a major opcode joined to a 12-bit target (30_encoding.md R71). -/
theorem fields_of_target (c : Nibble) (nnn : Addr) :
    fieldC (c ++ nnn : Word) = c ∧ fieldNNN (c ++ nnn : Word) = nnn := by
  refine ⟨?_, ?_⟩ <;>
  · apply BitVec.eq_of_getLsbD_eq
    intro i hi
    simp only [fieldC, fieldNNN, BitVec.getLsbD_append, BitVec.getLsbD_extractLsb']
    interval_cases i <;> simp

/-- The mask and match of CALL test `C = 2` (30_encoding.md R73). -/
theorem call_pattern_iff (w : Word) : w &&& 0xF000 = 0x2000 ↔ fieldC w = 2 := by
  constructor
  · intro h
    apply BitVec.eq_of_getLsbD_eq
    intro i hi
    have hbit := congrArg (fun v : Word => v.getLsbD (12 + i)) h
    simp only [BitVec.getLsbD_and] at hbit
    simp only [fieldC, BitVec.getLsbD_extractLsb']
    interval_cases i <;> simpa using hbit
  · intro h
    apply BitVec.eq_of_getLsbD_eq
    intro i hi
    have hbit := congrArg (fun v : Nibble => v.getLsbD (i - 12)) h
    simp only [fieldC, BitVec.getLsbD_extractLsb'] at hbit
    simp only [BitVec.getLsbD_and]
    interval_cases i <;> first | (simp; done) | simpa using hbit

/-- The mask and match of ADD test `C = 8` and `D = 4` (30_encoding.md R73). -/
theorem add_pattern_iff (w : Word) : w &&& 0xF00F = 0x8004 ↔ fieldC w = 8 ∧ fieldD w = 4 := by
  constructor
  · intro h
    refine ⟨?_, ?_⟩
    all_goals
      apply BitVec.eq_of_getLsbD_eq
      intro i hi
    · have hbit := congrArg (fun v : Word => v.getLsbD (12 + i)) h
      simp only [BitVec.getLsbD_and] at hbit
      simp only [fieldC, BitVec.getLsbD_extractLsb']
      interval_cases i <;> simpa using hbit
    · have hbit := congrArg (fun v : Word => v.getLsbD i) h
      simp only [BitVec.getLsbD_and] at hbit
      simp only [fieldD, BitVec.getLsbD_extractLsb']
      interval_cases i <;> simpa using hbit
  · rintro ⟨hc, hd⟩
    apply BitVec.eq_of_getLsbD_eq
    intro i hi
    have hbitC := congrArg (fun v : Nibble => v.getLsbD (i - 12)) hc
    have hbitD := congrArg (fun v : Nibble => v.getLsbD i) hd
    simp only [fieldC, fieldD, BitVec.getLsbD_extractLsb'] at hbitC hbitD
    simp only [BitVec.getLsbD_and]
    interval_cases i <;> first | (simp; done) | simpa using hbitD | simpa using hbitC

/-- A word's two bytes joined high byte first are the word (20_memory.md R52). -/
@[simp] theorem joinBytes_high_low (w : Word) : joinBytes (highByte w) (lowByte w) = w := by
  apply BitVec.eq_of_getLsbD_eq
  intro i hi
  simp only [joinBytes, highByte, lowByte, BitVec.getLsbD_append, BitVec.getLsbD_extractLsb']
  interval_cases i <;> simp

end Sys2Proof
end

