-- ==== Sys2Proof/Laws/State.lean ====
section
/-!
SUPPORT. One lemma per field per update of State, true by unfolding, and the read-after-write laws of registers and
stack slots, so that no proof unfolds a record update.
-/

namespace Sys2Proof.Machine

section Registers
variable (s : State) (i j : Nibble) (v : Byte)

@[simp] theorem writeReg_pc : (writeReg s i v).pc = s.pc := rfl
@[simp] theorem writeReg_stack : (writeReg s i v).stack = s.stack := rfl
@[simp] theorem writeReg_sp : (writeReg s i v).sp = s.sp := rfl
@[simp] theorem writeReg_run : (writeReg s i v).run = s.run := rfl
@[simp] theorem writeReg_cause : (writeReg s i v).cause = s.cause := rfl
@[simp] theorem writeReg_mem : (writeReg s i v).mem = s.mem := rfl
@[simp] theorem readSlot_writeReg : readSlot (writeReg s i v) j = readSlot s j := rfl
@[simp] theorem memRead_writeReg (a : Addr) : memRead (writeReg s i v) a = memRead s a := rfl

/-- A register reads as last written; no register is hardwired (10_state.md R20). -/
theorem readReg_writeReg : readReg (writeReg s i v) j = if j = i then v else readReg s j := by
  simp [readReg, writeReg, Vector.getElem_set, BitVec.toNat_inj, eq_comm]

@[simp] theorem readReg_writeReg_self : readReg (writeReg s i v) i = v := by simp [readReg_writeReg]

theorem readReg_writeReg_of_ne (h : j ≠ i) : readReg (writeReg s i v) j = readReg s j := by
  simp [readReg_writeReg, h]

variable (c : BitVec 1)

@[simp] theorem writeCarry_pc : (writeCarry s c).pc = s.pc := rfl
@[simp] theorem writeCarry_stack : (writeCarry s c).stack = s.stack := rfl
@[simp] theorem writeCarry_sp : (writeCarry s c).sp = s.sp := rfl
@[simp] theorem writeCarry_run : (writeCarry s c).run = s.run := rfl
@[simp] theorem writeCarry_cause : (writeCarry s c).cause = s.cause := rfl
@[simp] theorem writeCarry_mem : (writeCarry s c).mem = s.mem := rfl

/-- The flag write reaches register 15 alone (41_arithmetic.md R115). -/
theorem readReg_writeCarry : readReg (writeCarry s c) j = if j = 15 then c.setWidth 8 else readReg s j :=
  readReg_writeReg s Config.flagReg j (c.setWidth 8)

end Registers

section Slots
variable (s : State) (i j : Nibble) (v : Word)

@[simp] theorem writeSlot_regs : (writeSlot s i v).regs = s.regs := rfl
@[simp] theorem writeSlot_pc : (writeSlot s i v).pc = s.pc := rfl
@[simp] theorem writeSlot_sp : (writeSlot s i v).sp = s.sp := rfl
@[simp] theorem writeSlot_run : (writeSlot s i v).run = s.run := rfl
@[simp] theorem writeSlot_cause : (writeSlot s i v).cause = s.cause := rfl
@[simp] theorem writeSlot_mem : (writeSlot s i v).mem = s.mem := rfl

/-- A slot reads as last written (00_scope.md R9). -/
theorem readSlot_writeSlot : readSlot (writeSlot s i v) j = if j = i then v else readSlot s j := by
  simp [readSlot, writeSlot, Vector.getElem_set, BitVec.toNat_inj, eq_comm]

@[simp] theorem push_regs : (push s v).regs = s.regs := rfl
@[simp] theorem push_pc : (push s v).pc = s.pc := rfl
@[simp] theorem push_sp : (push s v).sp = s.sp + 1 := rfl
@[simp] theorem push_run : (push s v).run = s.run := rfl
@[simp] theorem push_cause : (push s v).cause = s.cause := rfl
@[simp] theorem push_mem : (push s v).mem = s.mem := rfl

theorem readSlot_push : readSlot (push s v) j = if j = slotIndex s.sp then v else readSlot s j :=
  readSlot_writeSlot s (slotIndex s.sp) j v

@[simp] theorem pop_regs : (pop s).2.regs = s.regs := rfl
@[simp] theorem pop_pc : (pop s).2.pc = s.pc := rfl
@[simp] theorem pop_stack : (pop s).2.stack = s.stack := rfl
@[simp] theorem pop_sp : (pop s).2.sp = s.sp - 1 := rfl
@[simp] theorem pop_run : (pop s).2.run = s.run := rfl
@[simp] theorem pop_cause : (pop s).2.cause = s.cause := rfl
@[simp] theorem pop_mem : (pop s).2.mem = s.mem := rfl
@[simp] theorem pop_value : (pop s).1 = readSlot s (slotIndex (s.sp - 1)) := rfl
@[simp] theorem readSlot_pop : readSlot (pop s).2 j = readSlot s j := rfl

end Slots

section Sequencing
variable (s : State)

@[simp] theorem advancePc_regs : (advancePc s).regs = s.regs := rfl
@[simp] theorem advancePc_pc : (advancePc s).pc = s.pc + 2 := rfl
@[simp] theorem advancePc_stack : (advancePc s).stack = s.stack := rfl
@[simp] theorem advancePc_sp : (advancePc s).sp = s.sp := rfl
@[simp] theorem advancePc_run : (advancePc s).run = s.run := rfl
@[simp] theorem advancePc_cause : (advancePc s).cause = s.cause := rfl
@[simp] theorem advancePc_mem : (advancePc s).mem = s.mem := rfl

@[simp] theorem readyToRun_regs : (readyToRun s).regs = s.regs := rfl
@[simp] theorem readyToRun_stack : (readyToRun s).stack = s.stack := rfl
@[simp] theorem readyToRun_sp : (readyToRun s).sp = s.sp := rfl
@[simp] theorem readyToRun_run : (readyToRun s).run = .running := rfl
@[simp] theorem readyToRun_cause : (readyToRun s).cause = .none := rfl
@[simp] theorem readyToRun_mem : (readyToRun s).mem = s.mem := rfl

end Sequencing

section MemoryWrites
variable (s : State) (a : Addr) (v : Byte)

@[simp] theorem memWrite_regs : (memWrite s a v).regs = s.regs := rfl
@[simp] theorem memWrite_pc : (memWrite s a v).pc = s.pc := rfl
@[simp] theorem memWrite_stack : (memWrite s a v).stack = s.stack := rfl
@[simp] theorem memWrite_sp : (memWrite s a v).sp = s.sp := rfl
@[simp] theorem memWrite_run : (memWrite s a v).run = s.run := rfl
@[simp] theorem memWrite_cause : (memWrite s a v).cause = s.cause := rfl

end MemoryWrites

end Sys2Proof.Machine
end

