-- ==== Sys2Proof/Laws/Memory.lean ====
section
/-!
SUPPORT. The laws of memory: a read after a write, the canonical form, and that every memory operation keeps it.
-/

namespace Sys2Proof.Machine

@[simp] theorem Memory.read_nil (a : Nat) : Memory.read [] a = Config.resetByte := rfl

theorem Memory.wfFrom_cons (lo a : Nat) (v : Byte) (m : Memory) :
    Memory.wfFrom lo ((a, v) :: m) = true ↔ lo ≤ a ∧ a < 4096 ∧ v ≠ Config.resetByte ∧ Memory.wfFrom (a + 1) m = true := by
  simp only [Memory.wfFrom, Bool.and_eq_true, decide_eq_true_eq, and_assoc]; rfl

theorem Memory.wfFrom_mono {lo lo' : Nat} (h : lo' ≤ lo) {m : Memory} (hm : Memory.wfFrom lo m = true) :
    Memory.wfFrom lo' m = true := by
  cases m with
  | nil => rfl
  | cons c rest =>
    obtain ⟨h1, h2⟩ := (Memory.wfFrom_cons ..).mp hm
    exact (Memory.wfFrom_cons ..).mpr ⟨by omega, h2⟩

/-- Below the first address a canonical list may hold, every byte reads as reset left it. -/
theorem Memory.read_below {lo : Nat} {m : Memory} (hm : Memory.wfFrom lo m = true) {a : Nat} (ha : a < lo) :
    Memory.read m a = Config.resetByte := by
  induction m generalizing lo with
  | nil => rfl
  | cons c rest ih =>
    obtain ⟨h1, -, -, h4⟩ := (Memory.wfFrom_cons ..).mp hm
    have hne : a ≠ c.1 := by omega
    simpa [Memory.read, hne] using ih h4 (by omega)

/-- A write keeps the canonical form. -/
theorem Memory.write_wfFrom {lo : Nat} {m : Memory} (hm : Memory.wfFrom lo m = true) {a : Nat} (hlo : lo ≤ a)
    (ha : a < 4096) (v : Byte) : Memory.wfFrom lo (Memory.write m a v) = true := by
  induction m generalizing lo with
  | nil =>
    by_cases hv : v = Config.resetByte
    · simp [Memory.write, hv, Memory.wfFrom]
    · simp only [Memory.write, if_neg hv]
      exact (Memory.wfFrom_cons ..).mpr ⟨hlo, ha, hv, rfl⟩
  | cons c rest ih =>
    obtain ⟨b, u⟩ := c
    obtain ⟨h1, h2, h3, h4⟩ := (Memory.wfFrom_cons ..).mp hm
    by_cases hlt : a < b
    · by_cases hv : v = Config.resetByte
      · simpa [Memory.write, hlt, hv] using hm
      · simp only [Memory.write, if_pos hlt, if_neg hv]
        exact (Memory.wfFrom_cons ..).mpr ⟨hlo, ha, hv, (Memory.wfFrom_cons ..).mpr ⟨by omega, h2, h3, h4⟩⟩
    · by_cases hab : a = b
      · subst hab
        by_cases hv : v = Config.resetByte
        · simpa [Memory.write, hv] using Memory.wfFrom_mono (by omega) h4
        · simp only [Memory.write, if_neg hlt, if_neg hv, if_true]
          exact (Memory.wfFrom_cons ..).mpr ⟨hlo, ha, hv, h4⟩
      · simp only [Memory.write, if_neg hlt, if_neg hab]
        exact (Memory.wfFrom_cons ..).mpr ⟨h1, h2, h3, ih h4 (by omega)⟩

/-- A read after a write: the byte written at its address, every other byte as before. -/
theorem Memory.read_write {lo : Nat} {m : Memory} (hm : Memory.wfFrom lo m = true) (a : Nat) (v : Byte) (k : Nat) :
    Memory.read (Memory.write m a v) k = if k = a then v else Memory.read m k := by
  induction m generalizing lo with
  | nil =>
    by_cases hv : v = Config.resetByte
    · simp [Memory.write, hv]
    · simp [Memory.write, hv, Memory.read]
  | cons c rest ih =>
    obtain ⟨b, u⟩ := c
    obtain ⟨-, -, -, h4⟩ := (Memory.wfFrom_cons ..).mp hm
    by_cases hlt : a < b
    · have hbelow : Memory.read ((b, u) :: rest) a = Config.resetByte := by
        have hne : a ≠ b := by omega
        simpa [Memory.read, hne] using Memory.read_below h4 (by omega)
      by_cases hv : v = Config.resetByte
      · by_cases hk : k = a
        · subst hk; simpa [Memory.write, hlt, hv] using hbelow
        · simp [Memory.write, hlt, hv, hk]
      · simp [Memory.write, hlt, hv, Memory.read]
    · by_cases hab : a = b
      · subst hab
        by_cases hv : v = Config.resetByte
        · by_cases hk : k = a
          · subst hk
            simpa [Memory.write, hv] using Memory.read_below h4 (by omega)
          · simp [Memory.write, hv, Memory.read, hk]
        · by_cases hk : k = a <;> simp [Memory.write, hv, Memory.read, hk]
      · by_cases hk : k = b
        · subst hk
          have hne : k ≠ a := fun h => hab h.symm
          simp [Memory.write, hlt, hab, Memory.read, hne]
        · simp [Memory.write, hlt, hab, Memory.read, hk, ih h4]

/-- `memWrite` keeps the canonical form. -/
theorem memWrite_wf {s : State} (h : Memory.wf s.mem = true) (a : Addr) (v : Byte) :
    Memory.wf (memWrite s a v).mem = true :=
  Memory.write_wfFrom h (Nat.zero_le _) a.isLt v

/-- What `memWrite` does to every byte. -/
theorem memRead_memWrite {s : State} (h : Memory.wf s.mem = true) (a k : Addr) (v : Byte) :
    memRead (memWrite s a v) k = if k = a then v else memRead s k := by
  simpa [memRead, memWrite, BitVec.toNat_inj] using Memory.read_write h a.toNat v k.toNat

/-- Canonical memories that read the same at every address are the same list. -/
theorem Memory.ext_of_read {lo : Nat} {m n : Memory} (hm : Memory.wfFrom lo m = true) (hn : Memory.wfFrom lo n = true)
    (h : ∀ a, Memory.read m a = Memory.read n a) : m = n := by
  induction m generalizing lo n with
  | nil =>
    cases n with
    | nil => rfl
    | cons d rest =>
      obtain ⟨-, -, h3, -⟩ := (Memory.wfFrom_cons ..).mp hn
      exact absurd (by simpa [Memory.read] using (h d.1).symm) h3
  | cons c rest ih =>
    obtain ⟨b, u⟩ := c
    obtain ⟨-, -, hu, h4⟩ := (Memory.wfFrom_cons ..).mp hm
    cases n with
    | nil => exact absurd (by simpa [Memory.read] using h b) hu
    | cons d rest' =>
      obtain ⟨b', u'⟩ := d
      obtain ⟨-, -, hu', h4'⟩ := (Memory.wfFrom_cons ..).mp hn
      have hb : b = b' := by
        by_contra hne
        rcases Nat.lt_or_gt_of_ne hne with hlt | hlt
        · have := h b
          simp [Memory.read, hne, Memory.read_below h4' (show b < b' + 1 by omega)] at this
          exact hu this
        · have := h b'
          simp [Memory.read, Ne.symm hne, Memory.read_below h4 (show b' < b + 1 by omega)] at this
          exact hu' this.symm
      subst hb
      have huu : u = u' := by simpa [Memory.read] using h b
      subst huu
      refine congrArg _ (ih h4 h4' fun a => ?_)
      by_cases hab : a = b
      · subst hab
        rw [Memory.read_below h4 (Nat.lt_succ_self _), Memory.read_below h4' (Nat.lt_succ_self _)]
      · simpa [Memory.read, hab] using h a

/-- Reset memory lists nothing and is canonical. -/
theorem reset_mem_wf : Memory.wf State.reset.mem = true := rfl

end Sys2Proof.Machine
end

