-- ==== Sys2Proof/Laws/Ops.lean ====
section
/-!
SUPPORT. What each shared operation and each meaning can do, said once: the ALU, the fetch, the host's setup writes,
and one inversion lemma per meaning and for the step ("if it answers next t, then …").
-/

namespace Sys2Proof.Machine

theorem lastFetch_toNat : Config.lastFetch.toNat = 0xFFE := rfl
theorem spFull_toNat : Config.spFull.toNat = 16 := rfl

/-! ### The ALU -/

/-- The ALU's sum wraps at 8 bits. -/
theorem aluAdd_sum (a b : Byte) : (aluAdd a b).1 = a + b := by
  apply BitVec.eq_of_toNat_eq
  simp only [aluAdd, BitVec.extractLsb'_toNat, BitVec.toNat_add, BitVec.toNat_setWidth, Nat.shiftRight_zero]
  have ha := a.isLt
  have hb := b.isLt
  omega

/-- The ALU's carry is bit 8 of the sum. -/
theorem aluAdd_carry (a b : Byte) : ((aluAdd a b).2).toNat = (a.toNat + b.toNat) / 256 := by
  simp only [aluAdd, BitVec.extractLsb'_toNat, BitVec.toNat_add, BitVec.toNat_setWidth, Nat.shiftRight_eq_div_pow]
  have ha := a.isLt
  have hb := b.isLt
  omega

/-! ### The stack pointer's slot -/

theorem slotIndex_toNat {sp : StackPtr} (h : sp.toNat < 16) : (slotIndex sp).toNat = sp.toNat := by
  simp only [slotIndex, BitVec.toNat_setWidth]
  omega

theorem slotIndex_eq_ofNat (sp : StackPtr) : slotIndex sp = BitVec.ofNat 4 sp.toNat := by
  apply BitVec.eq_of_toNat_eq
  simp [slotIndex]

theorem sp_add_one {sp : StackPtr} (h : sp.toNat < 16) : (sp + 1).toNat = sp.toNat + 1 := by
  rw [BitVec.toNat_add]
  simp
  omega

theorem sp_sub_one {sp : StackPtr} (h : 0 < sp.toNat) : (sp - 1).toNat = sp.toNat - 1 := by
  have := sp.isLt
  rw [BitVec.toNat_sub]
  simp
  omega

theorem slotIndex_pred {sp : StackPtr} (h : 0 < sp.toNat) : slotIndex (sp - 1) = BitVec.ofNat 4 (sp.toNat - 1) := by
  rw [slotIndex_eq_ofNat, sp_sub_one h]

/-! ### The fetch -/

theorem portAddr_toNat {a : Word} (h : a.toNat < 4096) : (portAddr a).toNat = a.toNat := by
  simp only [portAddr, BitVec.extractLsb'_toNat, Nat.shiftRight_zero]
  omega

theorem fetchWord_of_le {s : State} (h : s.pc.toNat ≤ 0xFFE) :
    fetchWord s = some (joinBytes (memRead s (portAddr s.pc)) (memRead s (portAddr (s.pc + 1)))) := by
  have : ¬ s.pc > Config.lastFetch := by
    simp only [gt_iff_lt, BitVec.lt_def, lastFetch_toNat]; omega
  simp [fetchWord, this]

theorem fetchWord_of_gt {s : State} (h : 0xFFE < s.pc.toNat) : fetchWord s = none := by
  have : s.pc > Config.lastFetch := by
    simp only [gt_iff_lt, BitVec.lt_def, lastFetch_toNat]; omega
  simp [fetchWord, this]

/-- The fetched word, by the addresses of its two bytes (20_memory.md R52). -/
theorem fetchWord_eq_read {s : State} (h : s.pc.toNat ≤ 0xFFE) :
    fetchWord s =
      some (joinBytes (Memory.read s.mem s.pc.toNat) (Memory.read s.mem (s.pc.toNat + 1))) := by
  have hnext : (s.pc + 1).toNat = s.pc.toNat + 1 := by
    rw [BitVec.toNat_add]
    simp
    omega
  rw [fetchWord_of_le h]
  unfold memRead
  rw [portAddr_toNat (by omega), portAddr_toNat (by omega), hnext]

theorem admissible_iff (s : State) : admissible s = true ↔ s.sp.toNat ≤ 16 ∧ s.pc.toNat ≤ 0x1000 := by
  simp [admissible, Config.spFull, Config.pcMax, BitVec.le_def]

/-! ### The host's setup writes -/

theorem hostWriteMem_next {addr : Nat} {v : Byte} {s t : State} (h : hostWriteMem addr v s = .next t) :
    s.run = .idle ∧ addr < 4096 ∧ t = memWrite s (BitVec.ofNat 12 addr) v := by
  unfold hostWriteMem at h
  split at h
  · rename_i hok
    cases h
    exact ⟨hok.1, hok.2, rfl⟩
  · cases h

theorem hostWriteReg_next {i : Nat} {v : Byte} {s t : State} (h : hostWriteReg i v s = .next t) :
    s.run = .idle ∧ i < 16 ∧ t = writeReg s (BitVec.ofNat 4 i) v := by
  unfold hostWriteReg at h
  split at h
  · rename_i hok
    cases h
    exact ⟨hok.1, hok.2, rfl⟩
  · cases h

theorem hostRun_next {s t : State} (h : hostRun s = .next t) : s.run = .idle ∧ t = { s with run := .running } := by
  unfold hostRun at h
  split at h
  · cases h; exact ⟨‹_›, rfl⟩
  · cases h

/-! ### What a meaning can do -/

theorem execCall_next {nnn : Addr} {s t : State} (h : execCall nnn s = .next t) :
    (s.sp = 16 ∧ t = { s with run := .faulted, cause := .stackOverflow }) ∨
    (s.sp.toNat < 16 ∧ t = { push s s.pc with pc := callTarget nnn }) := by
  unfold execCall raise at h
  split at h
  · cases h; exact .inl ⟨‹_›, rfl⟩
  · split at h
    · cases h
    · rename_i hne hgt
      cases h
      refine .inr ⟨?_, rfl⟩
      simp only [gt_iff_lt, BitVec.lt_def, ← BitVec.toNat_inj, spFull_toNat] at hne hgt
      omega

theorem execRet_next {s t : State} (h : execRet s = .next t) :
    (s.sp = 0 ∧ t = { s with run := .faulted, cause := .stackUnderflow }) ∨
    (0 < s.sp.toNat ∧ s.sp.toNat ≤ 16 ∧ t = { (pop s).2 with pc := (pop s).1 }) := by
  unfold execRet raise at h
  split at h
  · cases h; exact .inl ⟨‹_›, rfl⟩
  · split at h
    · cases h
    · rename_i hne hgt
      cases h
      refine .inr ⟨?_, ?_, rfl⟩
      · exact Nat.pos_of_ne_zero fun h0 => hne (BitVec.eq_of_toNat_eq h0)
      · simp only [gt_iff_lt, BitVec.lt_def, spFull_toNat] at hgt
        omega

theorem execCall_of_lt {s : State} (h : s.sp.toNat < 16) (nnn : Addr) :
    execCall nnn s = .next { push s s.pc with pc := callTarget nnn } := by
  have hne : ¬ s.sp = Config.spFull := fun h' => by rw [h', spFull_toNat] at h; omega
  have hle : ¬ s.sp > Config.spFull := by rw [gt_iff_lt, BitVec.lt_def, spFull_toNat]; omega
  simp only [execCall, if_neg hne, if_neg hle]

theorem execRet_of_pos {s : State} (h : 0 < s.sp.toNat) (h' : s.sp.toNat ≤ 16) :
    execRet s = .next { (pop s).2 with pc := (pop s).1 } := by
  have hne : ¬ s.sp = 0 := fun h0 => by simp [h0] at h
  have hle : ¬ s.sp > Config.spFull := by rw [gt_iff_lt, BitVec.lt_def, spFull_toNat]; omega
  simp only [execRet, if_neg hne, if_neg hle]

/-- Where a fetch succeeds, a step dispatches the decoded bytes on the state with the advanced pc. -/
theorem step_eq_dispatch {s : State} (hrun : s.run = .running) (hsp : s.sp.toNat ≤ 16) (hpc : s.pc.toNat ≤ 0xFFE) :
    step s =
      dispatch (decodeBytes (Memory.read s.mem s.pc.toNat) (Memory.read s.mem (s.pc.toNat + 1))) (advancePc s) := by
  have hadm := (admissible_iff s).mpr ⟨hsp, by omega⟩
  simp only [step, takeStep, hrun, hadm, if_true, runInstruction, fetchWord_eq_read hpc, decodeBytes]

/-- Everything a step that answers a next state can have done (40_sequencer.md R91): the fetch fault, or the effect
of the decoded variant on the state with the advanced pc. -/
theorem step_next {s t : State} (h : step s = .next t) :
    s.run = .running ∧ s.sp.toNat ≤ 16 ∧ s.pc.toNat ≤ 0x1000 ∧
    ((fetchWord s = none ∧ t = { s with run := .faulted, cause := .fetchOutOfRange }) ∨
     ∃ w, fetchWord s = some w ∧ dispatch (decodeWord w) (advancePc s) = .next t) := by
  unfold step takeStep at h
  split at h
  · rename_i hrun
    split at h
    · rename_i hadm
      obtain ⟨hsp, hpc⟩ := (admissible_iff s).mp hadm
      refine ⟨hrun, hsp, hpc, ?_⟩
      unfold runInstruction at h
      split at h
      · cases h; exact .inl ⟨‹_›, rfl⟩
      · exact .inr ⟨_, ‹_›, h⟩
    · cases h
  all_goals cases h

end Sys2Proof.Machine
end

