-- ==== Sys2Proof/Laws/PerInstr.lean ====
section
/-!
SUPPORT. Statements about every instruction as syntax, one lemma per constructor (LAWS.json, "per_instruction").
-/

namespace Sys2Proof.Laws.MatchesTableRow

/-- The instruction is well-formed and its word lies in its own row of spec/opcode_table.json. -/
def Statement (i : Instr) : Prop :=
  i.wf = true ∧ encode i &&& (tableRow i).mask = (tableRow i).pattern

theorem halt : Statement .halt := ⟨rfl, rfl⟩

theorem add (x y : Nibble) : Statement (.add x y) := by
  refine ⟨?_, ?_⟩
  · simp only [Instr.wf, Bool.and_eq_true, decide_eq_true_eq]
    exact ⟨x.isLt, y.isLt⟩
  · revert x y
    decide

theorem call (nnn : Addr) : Statement (.call nnn) := by
  refine ⟨by simp only [Instr.wf, decide_eq_true_eq]; exact nnn.isLt, ?_⟩
  apply BitVec.eq_of_getLsbD_eq
  intro i hi
  simp only [encode, tableRow, BitVec.getLsbD_and, BitVec.getLsbD_append]
  by_cases h : i < 12
  · interval_cases i <;> simp
  · simp only [h, if_false]
    interval_cases i <;> first | exact absurd (by decide) h | rfl

theorem ret : Statement .ret := ⟨rfl, rfl⟩

end Sys2Proof.Laws.MatchesTableRow
end

