-- ==== Sys2Proof/Laws/Run.lean ====
section
/-!
SUPPORT. A run of the core and a session of the host, taken apart one step or request at a time, and the range checks
of the host's requests as plain inequalities.
-/

namespace Sys2Proof.Machine

@[simp] theorem runsTo_zero (s t : State) : RunsTo 0 s t ↔ s = t :=
  ⟨fun h => by cases h; rfl, fun h => congrArg Host.Outcome.next h⟩

/-- A run of any machine, one step taken off its front. -/
theorem coreRun_succ (M : Host.Core) (k : Nat) (s t : M.State) :
    M.run (k + 1) s = .next t ↔ ∃ u, M.step s = .next u ∧ M.run k u = .next t := by
  simp only [Host.Core.run]
  cases M.step s with
  | next u => exact ⟨fun h => ⟨u, rfl, h⟩, fun ⟨_, hu, h⟩ => by cases hu; exact h⟩
  | fault r => exact ⟨(nomatch ·), fun ⟨_, hu, _⟩ => nomatch hu⟩
  | refused r => exact ⟨(nomatch ·), fun ⟨_, hu, _⟩ => nomatch hu⟩

theorem runsTo_succ (k : Nat) (s t : State) : RunsTo (k + 1) s t ↔ ∃ u, step s = .next u ∧ RunsTo k u t :=
  coreRun_succ Sys2Proof.core k s t

/-- Runs compose. -/
theorem RunsTo.trans {j k : Nat} {s t u : State} (h : RunsTo j s t) (h' : RunsTo k t u) : RunsTo (j + k) s u := by
  induction j generalizing s with
  | zero =>
    cases (runsTo_zero s t).mp h
    simpa using h'
  | succ j ih =>
    obtain ⟨v, hv, hr⟩ := (runsTo_succ j s t).mp h
    rw [Nat.succ_add]
    exact (runsTo_succ (j + k) s u).mpr ⟨v, hv, ih hr⟩

@[simp] theorem hostSession_nil (s t : State) : HostSession [] s t ↔ s = t := Iff.rfl

theorem hostSession_cons (q : HostRequest) (qs : List HostRequest) (s t : State) :
    HostSession (q :: qs) s t ↔ ∃ u, hostExec q s = .next u ∧ HostSession qs u t := Iff.rfl

theorem wf_writeMem (addr : Nat) (v : Byte) : (HostRequest.writeMem addr v).wf = true ↔ addr < 4096 := decide_eq_true_iff
theorem wf_writeReg (i : Nat) (v : Byte) : (HostRequest.writeReg i v).wf = true ↔ i < 16 := decide_eq_true_iff
theorem wf_reg (i : Nat) : (StateElement.reg i).wf = true ↔ i < 16 := decide_eq_true_iff
theorem wf_slot (j : Nat) : (StateElement.slot j).wf = true ↔ j < 16 := decide_eq_true_iff
theorem wf_memByte (addr : Nat) : (StateElement.memByte addr).wf = true ↔ addr < 4096 := decide_eq_true_iff

/-- A host read of an existing element outside RUNNING answers its value. -/
theorem hostRead_ok {e : StateElement} {s : State} (hr : s.run ≠ .running) (he : e.wf = true) :
    hostRead e s = .ok (elementValue e s) := if_pos ⟨hr, he⟩

/-- Any other host read is refused. -/
theorem hostRead_error {e : StateElement} {s : State} (h : s.run = .running ∨ ¬ e.wf = true) :
    hostRead e s = .error .usageError :=
  if_neg fun ⟨hr, he⟩ => h.elim (fun h' => hr h') (fun h' => h' he)

end Sys2Proof.Machine
end

