-- ==== Sys2Proof/Tests/Slice0.lean ====
section
/-!
SUPPORT. The model's own tests: decodings of words written out from 30_encoding.md R71 and R73, the checks of
WellFormed.lean, single steps with the results of 95_test_vectors.md, and for each statement of Obligations.lean that
has hypotheses a witness that meets them.
-/

namespace Sys2Proof.Tests

open Sys2Proof Sys2Proof.Machine

/-- A RUNNING state with the given pc, stack pointer and memory, all else as reset left it. -/
def atPc (pc : Word) (sp : StackPtr) (mem : Memory) : State :=
  { State.reset with run := .running, pc := pc, sp := sp, mem := mem }

/-- A part of the next state, if there is one. -/
def after {α : Type} (o : Host.Outcome State Fault Refusal) (f : State → α) : Option α :=
  match o with
  | .next s => some (f s)
  | .fault _ => none
  | .refused _ => none

/-! ### Well-formedness: each check refuses an ill-formed term -/

theorem test_wf_refuses_unknown_halt : Variant.wf (.unknown 0 0 0 0) = false := by decide
theorem test_wf_refuses_unknown_ret : Variant.wf (.unknown 0 0 0xE 0xE) = false := by decide
theorem test_wf_refuses_unknown_call : Variant.wf (.unknown 2 0xA 0xB 0xC) = false := by decide
theorem test_wf_refuses_unknown_add : Variant.wf (.unknown 8 0 1 4) = false := by decide
theorem test_wf_accepts_unknown : Variant.wf (.unknown 8 0 1 5) = true := by decide
theorem test_wf_refuses_host_memory_address : HostRequest.wf (.writeMem 0x1000 0) = false := by decide
theorem test_wf_refuses_host_register : HostRequest.wf (.writeReg 16 0) = false := by decide
theorem test_wf_refuses_read_of_register : StateElement.wf (.reg 16) = false := by decide
theorem test_wf_refuses_read_of_slot : StateElement.wf (.slot 16) = false := by decide
theorem test_wf_refuses_read_of_memory : StateElement.wf (.memByte 0x1000) = false := by decide
/-- A list out of canonical form: falling addresses, a listed reset byte, an address outside memory. -/
theorem test_wf_refuses_memory :
    Memory.wf [(2, 1), (1, 1)] = false ∧ Memory.wf [(1, 0)] = false ∧ Memory.wf [(4096, 1)] = false := by decide

/-! ### Decoding: words written out bit by bit -/

/-- HALT is `0000 0000 0000 0000`. -/
theorem test_decode_halt : decodeWord 0b0000000000000000 = .instr .halt := by decide
/-- `1000 XXXX YYYY 0100` with X = 10 and Y = 3. -/
theorem test_decode_add : decodeWord 0b1000101000110100 = .instr (.add 10 3) := by decide
/-- `0010 NNNN NNNN NNNN` with NNN = 0xABC. -/
theorem test_decode_call : decodeWord 0b0010101010111100 = .instr (.call 0xABC) := by decide
/-- RET is `0000 0000 1110 1110`. -/
theorem test_decode_ret : decodeWord 0b0000000011101110 = .instr .ret := by decide
/-- The UNKNOWN words next to the patterns (T-DEC-9, T-DEC-11 to T-DEC-16). -/
theorem test_decode_unknown :
    decodeWord 0x0001 = .unknown 0 0 0 1 ∧ decodeWord 0x00EF = .unknown 0 0 0xE 0xF ∧
    decodeWord 0x0EEE = .unknown 0 0xE 0xE 0xE ∧ decodeWord 0x10EE = .unknown 1 0 0xE 0xE ∧
    decodeWord 0x8010 = .unknown 8 0 1 0 ∧ decodeWord 0xFFFF = .unknown 0xF 0xF 0xF 0xF := by decide
theorem test_decodeTableWord :
    decodeTableWord 16 0x8014 = some (.add 0 1) ∧ decodeTableWord 16 0x8015 = none := by decide
/-- R80's encodings. -/
theorem test_encode :
    encode (.add 10 3) = 0x8A34 ∧ encode (.call 0xABC) = 0x2ABC ∧ encodeBytes .ret = [0x00, 0xEE] := by decide

/-! ### Single steps, with the results of 95_test_vectors.md -/

/-- T-SEQ-3. -/
theorem test_halt_at_end :
    after (step (atPc 0xFFE 0 [])) (fun t => (t.run, t.cause, t.pc)) = some (.halted, .none, 0x1000) := by decide
/-- T-ADD-1. -/
theorem test_add_wraps :
    after (step { atPc 0 0 [(0, 0x80), (1, 0x14)] with regs := #v[0xFF, 1, 0, 0, 0, 0, 0, 0, 0, 0, 0, 0, 0, 0, 0, 0] })
      (fun t => (readReg t 0, readReg t 1, readReg t 15, t.pc)) = some (0, 1, 1, 2) := by decide
/-- T-ADD-12: with X = 15 the sum is lost and VF ends as the carry. -/
theorem test_add_into_flag :
    after (step { atPc 0 0 [(0, 0x8F), (1, 0x04)] with
      regs := #v[0xF0, 0, 0, 0, 0, 0, 0, 0, 0, 0, 0, 0, 0, 0, 0, 0x20] })
      (fun t => (readReg t 0, readReg t 15)) = some (0xF0, 1) := by decide
/-- T-CALL-5: the 16th nested call succeeds. -/
theorem test_call_fills_stack :
    after (step (atPc 0x020 15 [(0x20, 0x23)])) (fun t => (t.pc, t.sp, readSlot t 15, t.run)) =
      some (0x300, 16, 0x22, .running) := by decide
/-- T-CALL-6: the 17th faults and pushes nothing. -/
theorem test_call_overflow :
    after (step (atPc 0x020 16 [(0x20, 0x23)])) (fun t => (t.run, t.cause, t.pc, t.sp, readSlot t 15)) =
      some (.faulted, .stackOverflow, 0x22, 16, 0) := by decide
/-- T-RET-2. -/
theorem test_ret_from_full :
    after (step { atPc 0x200 16 [(0x201, 0xEE)] with
      stack := #v[0, 0, 0, 0, 0, 0, 0, 0, 0, 0, 0, 0, 0, 0, 0, 0x22] })
      (fun t => (t.pc, t.sp, readSlot t 15)) = some (0x22, 15, 0x22) := by decide
/-- T-RET-3. -/
theorem test_ret_underflow :
    after (step (atPc 0 0 [(1, 0xEE)])) (fun t => (t.run, t.cause, t.pc, t.sp)) =
      some (.faulted, .stackUnderflow, 2, 0) := by decide
/-- T-SEQ-4, with the faulting address of R158. -/
theorem test_unknown_faults :
    after (step (atPc 0 0 [(0, 0x80), (1, 0x15)])) (fun t => (t.run, t.cause, t.pc, faultPc t, faultWord t)) =
      some (.faulted, .illegalInstruction, 2, some 0, some 0x8015) := by decide
/-- T-SEQ-6 and T-SEQ-7. -/
theorem test_fetch_out_of_range :
    after (step (atPc 0xFFF 0 [])) (fun t => (t.run, t.cause, t.pc)) = some (.faulted, .fetchOutOfRange, 0xFFF) ∧
    after (step (atPc 0x1000 0 [])) (fun t => (t.run, t.cause, t.pc)) = some (.faulted, .fetchOutOfRange, 0x1000) := by
  decide
/-- T-SEQ-9: an odd address is fetched like any other. -/
theorem test_fetch_odd : fetchWord (atPc 0x101 0 [(0x101, 0x80), (0x102, 0x14)]) = some 0x8014 := by decide
/-- T-HOST-1. -/
theorem test_reset_from_faulted :
    after (hostExec .reset { atPc 7 3 [(9, 9)] with run := .faulted, cause := .stackOverflow }) id = some State.reset := by
  decide
/-- T-HOST-2 to T-HOST-5: refused. -/
theorem test_host_refused :
    hostExec (.writeReg 16 1) State.reset = .refused .usageError ∧
    hostExec (.writeMem 0x1000 1) State.reset = .refused .usageError ∧
    hostExec (.writeReg 0 1) { State.reset with run := .halted } = .refused .usageError ∧
    hostExec .run { State.reset with run := .halted } = .refused .usageError := ⟨rfl, rfl, rfl, rfl⟩
/-- A write of the reset byte removes the entry, so the memory is the reset one again. -/
theorem test_memory_write_zero :
    Memory.write (Memory.write [(5, 1)] 3 7) 5 0 = [(3, 7)] ∧ Memory.write [(3, 7)] 3 0 = [] := by decide
/-- The first step after reset runs a placed word. -/
theorem test_withFetchWord :
    after (step (State.reset.withFetchWord 16 0x2100)) (fun t => (t.pc, t.sp, readSlot t 0)) = some (0x100, 1, 2) := by
  decide

/-! ### Witnesses: each hypothesis of a statement can be met, at the ends of its range -/

theorem witness_DecoderFollowsThePatternTable :
    (0x2FFF#16 &&& 0xF000 = 0x2000) ∧ (0x8FF4#16 &&& 0xF00F = 0x8004) ∧
    (0x0001#16 ≠ 0x0000 ∧ 0x0001#16 ≠ 0x00EE ∧ 0x0001#16 &&& 0xF000 ≠ 0x2000 ∧ 0x0001#16 &&& 0xF00F ≠ 0x8004) := by
  decide
theorem witness_WordsAndVariantsCorrespond :
    Variant.wf (.unknown 0 0 0xE 0xF) = true ∧ Variant.wf (.instr (.add 15 15)) = true := by decide
theorem witness_DecodeClassesAreDisjointAndCounted :
    (0x2000#16 &&& 0xF000 = 0x2000) ∧ (0x8004#16 &&& 0xF00F = 0x8004) := by decide
theorem witness_FetchIsBigEndianAtEveryAddress : (atPc 0xFFE 0 []).pc.toNat ≤ 0xFFE := by decide

/-- A RET at the last fetchable address with a full stack. -/
def lastRet : State := atPc 0xFFE 16 [(0xFFF, 0xEE)]
/-- An UNKNOWN word at the last fetchable address with a full stack. -/
def lastUnknown : State := atPc 0xFFE 16 [(0xFFF, 0x01)]
/-- A CALL at the last fetchable address with one slot left. -/
def lastCall : State := atPc 0xFFE 15 [(0xFFE, 0x2F), (0xFFF, 0xFF)]

theorem witness_StepRunsTheDecodedInstructionAfterTheAdvance :
    (lastRet.run = .running ∧ lastRet.sp.toNat ≤ 16 ∧ lastRet.pc.toNat ≤ 0xFFE ∧
      decodeBytes (Memory.read lastRet.mem lastRet.pc.toNat) (Memory.read lastRet.mem (lastRet.pc.toNat + 1)) =
        .instr .ret) ∧
    (lastUnknown.run = .running ∧ lastUnknown.sp.toNat ≤ 16 ∧ lastUnknown.pc.toNat ≤ 0xFFE ∧
      decodeBytes (Memory.read lastUnknown.mem lastUnknown.pc.toNat)
        (Memory.read lastUnknown.mem (lastUnknown.pc.toNat + 1)) = .unknown 0 0 0 1) := by decide
theorem witness_UnknownWordRaisesIllegalInstruction :
    lastUnknown.run = .running ∧ lastUnknown.sp.toNat ≤ 16 ∧ lastUnknown.pc.toNat ≤ 0xFFE ∧
      decodeBytes (Memory.read lastUnknown.mem lastUnknown.pc.toNat)
        (Memory.read lastUnknown.mem (lastUnknown.pc.toNat + 1)) = .unknown 0 0 0 1 := by decide
theorem witness_FetchPastTheEndRaisesFetchOutOfRange :
    ((atPc 0xFFF 16 []).run = .running ∧ (atPc 0xFFF 16 []).sp.toNat ≤ 16 ∧ 0xFFE < (atPc 0xFFF 16 []).pc.toNat ∧
      (atPc 0xFFF 16 []).pc.toNat ≤ 0x1000) ∧
    0xFFE < (atPc 0x1000 0 []).pc.toNat ∧ (atPc 0x1000 0 []).pc.toNat ≤ 0x1000 := by decide
theorem witness_NoStepIsTakenOutsideRunning : State.reset.run ≠ .running := by decide
theorem witness_ExactlyIllFormedStatesAreRefused :
    (atPc 0 17 []).run = .running ∧ 16 < (atPc 0 17 []).sp.toNat ∧ 0x1000 < (atPc 0x1001 0 []).pc.toNat := by decide

/-- A legal RUNNING state at the ends of the ranges of R36. -/
theorem lastRet_coreInv : CoreInv lastRet := ⟨by decide, by decide, by decide, by decide⟩
theorem witness_StepEndsInOneOfThreeOutcomes : CoreInv lastRet ∧ lastRet.run = .running := ⟨lastRet_coreInv, rfl⟩
theorem witness_NextPcFollowsTheSequencerTable : ∃ t, step lastRet = .next t ∧ t.pc = 0 := ⟨_, rfl, rfl⟩
theorem witness_HaltEndsTheRunAndChangesNothingElse :
    (atPc 0xFFE 16 []).run = .running ∧ (atPc 0xFFE 16 []).sp.toNat ≤ 16 ∧ (atPc 0xFFE 16 []).pc.toNat ≤ 0xFFE ∧
    Memory.read (atPc 0xFFE 16 []).mem 0xFFE = 0 ∧ Memory.read (atPc 0xFFE 16 []).mem 0xFFF = 0 := by decide
theorem witness_AddWritesTheSumThenTheCarry : (14 : Nibble) ≠ 15 ∧ (0 : Nibble) ≠ 14 ∧ (0 : Nibble) ≠ 15 := by decide
theorem witness_PushAndPopFollowTheStackDiscipline :
    (atPc 0 15 []).sp.toNat < 16 ∧ (0 < (atPc 0 1 []).sp.toNat ∧ (atPc 0 1 []).sp.toNat ≤ 16) ∧
    (0 < (atPc 0 16 []).sp.toNat ∧ (atPc 0 16 []).sp.toNat ≤ 16) := by decide
theorem witness_CallPushesThePcAndJumps : (atPc 0 15 []).sp.toNat < 16 ∧ (atPc 0 0 []).sp.toNat < 16 := by decide
theorem witness_CallOnAFullStackOverflows : (atPc 0 16 []).sp.toNat = 16 := by decide
theorem witness_CallPushesTheAddressAfterIt :
    lastCall.run = .running ∧ lastCall.sp.toNat < 16 ∧ lastCall.pc.toNat ≤ 0xFFE ∧
    decodeBytes (Memory.read lastCall.mem lastCall.pc.toNat) (Memory.read lastCall.mem (lastCall.pc.toNat + 1)) =
      .instr (.call 0xFFF) := by decide
theorem witness_RetPopsTheReturnAddressOrUnderflows :
    (0 < (atPc 0 1 []).sp.toNat ∧ (atPc 0 16 []).sp.toNat ≤ 16) ∧ (atPc 0 0 []).sp.toNat = 0 := by decide
theorem witness_RetUndoesCall :
    lastCall.sp.toNat < 16 ∧ ∃ t, exec (.call 0) lastCall = .next t ∧
      (push lastCall lastCall.pc).sp = t.sp ∧
      ∀ j : Nibble, j.toNat < t.sp.toNat → readSlot (push lastCall lastCall.pc) j = readSlot t j :=
  ⟨by decide, _, rfl, rfl, fun _ _ => rfl⟩
theorem witness_OnlyCallAndRetChangeTheStack :
    (∃ t, step lastCall = .next t ∧ t.sp ≠ lastCall.sp) ∧ ∃ t, step lastRet = .next t ∧ t.sp ≠ lastRet.sp :=
  ⟨⟨_, rfl, by decide⟩, ⟨_, rfl, by decide⟩⟩
/-- Two different states that agree but for a stale slot. -/
theorem witness_StaleSlotsAffectNoStep :
    lastCall ≠ writeSlot lastCall 15 7 ∧ AgreeButStaleSlots lastCall (writeSlot lastCall 15 7) :=
  ⟨by decide, rfl, rfl, rfl, by decide, rfl, rfl, rfl⟩
/-- Two different states that agree but for a register. -/
theorem witness_RegistersNeverAffectControlFlow :
    lastCall ≠ writeReg lastCall 15 7 ∧ AgreeButRegs lastCall (writeReg lastCall 15 7) :=
  ⟨by decide, rfl, rfl, rfl, rfl, rfl, rfl⟩
theorem witness_NoInstructionReadsOrWritesMemory :
    (∃ t, exec .ret lastRet = .next t) ∧
    (Memory.read [(3, 1), (0xFFF, 0xEE)] lastRet.pc.toNat = Memory.read lastRet.mem lastRet.pc.toNat ∧
      Memory.read [(3, 1), (0xFFF, 0xEE)] (lastRet.pc.toNat + 1) = Memory.read lastRet.mem (lastRet.pc.toNat + 1) ∧
      ∃ t, step lastRet = .next t) ∧
    ∃ t, hostExec (.writeMem 0xFFF 1) State.reset = .next t ∧ memRead t 0xFFF ≠ memRead State.reset 0xFFF :=
  ⟨⟨_, rfl⟩, ⟨by decide, by decide, _, rfl⟩, _, rfl, by decide⟩
theorem witness_MemoryIsConstantDuringARun :
    ∃ u t, hostExec .run State.reset = .next u ∧ RunsTo 1 u t ∧ t.run = .halted :=
  ⟨_, _, rfl, (runsTo_succ ..).mpr ⟨_, rfl, (runsTo_zero ..).mpr rfl⟩, rfl⟩
theorem witness_MemoryStaysCanonical :
    (Memory.wf lastRet.mem = true ∧ ∃ t, step lastRet = .next t) ∧
    Memory.wf State.reset.mem = true ∧ ∃ t, hostExec (.writeMem 0xFFF 1) State.reset = .next t :=
  ⟨⟨by decide, _, rfl⟩, by decide, _, rfl⟩
theorem witness_FaultsArePrecise :
    (∃ t, step lastUnknown = .next t ∧ t.run = .faulted) ∧ ∃ t, step (atPc 0x1000 0 []) = .next t ∧ t.run = .faulted :=
  ⟨⟨_, rfl, rfl⟩, _, rfl, rfl⟩
theorem witness_EachCauseHasItsCondition : lastUnknown.cause = .none ∧ ∃ t, step lastUnknown = .next t := ⟨rfl, _, rfl⟩
theorem witness_FaultAddressAndWordAreRecoverable :
    ∃ t, step lastUnknown = .next t ∧ t.run = .faulted := ⟨_, rfl, rfl⟩
theorem witness_OnlyResetLeavesAStopState :
    Stopped { State.reset with run := .halted } ∧
    ∃ t, hostExec .reset { State.reset with run := .halted } = .next t := ⟨.inl rfl, _, rfl⟩
theorem witness_StepPreservesCoreInv : CoreInv lastRet ∧ ∃ t, step lastRet = .next t := ⟨lastRet_coreInv, _, rfl⟩
theorem witness_HostRequestsPreserveCoreInv : CoreInv State.reset ∧ ∃ t, hostExec .run State.reset = .next t :=
  ⟨⟨by decide, by decide, by decide, by decide⟩, _, rfl⟩
theorem witness_EveryRunEnds : CoreInv lastRet ∧ lastRet.run = .running := ⟨lastRet_coreInv, rfl⟩
theorem witness_SetupWriteOfAMemoryByte :
    Memory.wf State.reset.mem = true ∧ State.reset.run = .idle ∧ 4095 < 4096 ∧
    (lastRet.run ≠ .idle ∨ 4096 ≤ 4095) ∧ (State.reset.run ≠ .idle ∨ 4096 ≤ 4096) := by decide
theorem witness_SetupWriteOfARegister :
    State.reset.run = .idle ∧ 15 < 16 ∧ (lastRet.run ≠ .idle ∨ 16 ≤ 15) ∧ (State.reset.run ≠ .idle ∨ 16 ≤ 16) := by
  decide
theorem witness_RunStateChangesOnlyAsAdmitted :
    (∃ t, step lastRet = .next t) ∧ (∃ t, hostExec .run State.reset = .next t ∧ t.run ≠ State.reset.run) ∧
    State.reset.run = .idle ∧ lastRet.run ≠ .idle :=
  ⟨⟨_, rfl⟩, ⟨_, rfl, by decide⟩, rfl, by decide⟩
theorem witness_EveryRunStartsAtTheEntryPoint :
    ∃ t, HostSession [.writeMem 0xFFF 1, .writeReg 15 0x77, .run] State.reset t ∧ t.run = .running :=
  ⟨_, ⟨_, rfl, _, rfl, _, rfl, rfl⟩, rfl⟩
theorem witness_HostReadsEveryElementOutsideRunning :
    lastRet.run = .running ∧ State.reset.run ≠ .running ∧ 16 ≤ 16 ∧ 4096 ≤ 4096 := by decide
theorem witness_PlacedInstructionRunsNext :
    (lastRet.sp.toNat ≤ 16 ∧ Memory.wf lastRet.mem = true) ∧
    (atPc 0x1000 16 []).sp.toNat ≤ 16 ∧ Memory.wf (atPc 0x1000 16 []).mem = true := by decide

end Sys2Proof.Tests
end

/-!
SUPPORT. The fields of a word as arithmetic on its number, the fields joined back to the word, and the decoder's
equation for each class of words that has an operand or is UNKNOWN.
-/

namespace Sys2Proof

section Fields
variable (w : Word)

/-- A bit range is the number divided by its start, cut to its width (30_encoding.md R71). -/
theorem extractLsb'_eq_ofNat_div (start len : Nat) :
    w.extractLsb' start len = BitVec.ofNat len (w.toNat / 2 ^ start) := by
  rw [BitVec.extractLsb', Nat.shiftRight_eq_div_pow]

theorem fieldC_eq_ofNat : fieldC w = BitVec.ofNat 4 (w.toNat / 4096) := extractLsb'_eq_ofNat_div w 12 4
theorem fieldX_eq_ofNat : fieldX w = BitVec.ofNat 4 (w.toNat / 256) := extractLsb'_eq_ofNat_div w 8 4
theorem fieldY_eq_ofNat : fieldY w = BitVec.ofNat 4 (w.toNat / 16) := extractLsb'_eq_ofNat_div w 4 4
theorem fieldD_eq_ofNat : fieldD w = BitVec.ofNat 4 w.toNat := rfl
theorem fieldNNN_eq_ofNat : fieldNNN w = BitVec.ofNat 12 w.toNat := rfl

/-- The four fields joined are the word (30_encoding.md R76): each join closes the gap to the next field. -/
theorem append_fields : fieldC w ++ fieldX w ++ fieldY w ++ fieldD w = w := by
  have hCX : fieldC w ++ fieldX w = w.extractLsb' 8 8 := BitVec.extractLsb'_append_extractLsb'_eq_extractLsb' rfl
  have hCXY : w.extractLsb' 8 8 ++ fieldY w = w.extractLsb' 4 12 :=
    BitVec.extractLsb'_append_extractLsb'_eq_extractLsb' rfl
  have hCXYD : w.extractLsb' 4 12 ++ fieldD w = w.extractLsb' 0 16 :=
    BitVec.extractLsb'_append_extractLsb'_eq_extractLsb' rfl
  rw [hCX, hCXY, hCXYD, BitVec.extractLsb'_eq_self]

/-- Joining four nibbles is shifting each to its place and or-ing them: the two spellings of 30_encoding.md R76. -/
theorem shiftLeft_or_eq_append (c x y d : Nibble) :
    (c.setWidth 16 <<< 12) ||| (x.setWidth 16 <<< 8) ||| (y.setWidth 16 <<< 4) ||| d.setWidth 16 =
      (c ++ x ++ y ++ d : Word) := by
  apply BitVec.eq_of_getLsbD_eq
  intro i hi
  simp only [BitVec.getLsbD_or, BitVec.getLsbD_shiftLeft, BitVec.getLsbD_setWidth, BitVec.getLsbD_append]
  interval_cases i <;> simp

end Fields

section Decoder
variable {w : Word}

theorem ne_halt_and_ne_ret_of_fieldC (h : fieldC w ≠ 0) : w ≠ 0x0000 ∧ w ≠ 0x00EE := by
  constructor <;> rintro rfl <;> exact h rfl

theorem decodeWord_call (hC : fieldC w = 2) : decodeWord w = .instr (.call (fieldNNN w)) := by
  obtain ⟨hHalt, hRet⟩ := ne_halt_and_ne_ret_of_fieldC (w := w) (by rw [hC]; decide)
  rw [decodeWord, if_neg hHalt, if_neg hRet, if_pos hC]

theorem decodeWord_add (h : fieldC w = 8 ∧ fieldD w = 4) :
    decodeWord w = .instr (.add (fieldX w) (fieldY w)) := by
  obtain ⟨hHalt, hRet⟩ := ne_halt_and_ne_ret_of_fieldC (w := w) (by rw [h.1]; decide)
  have hCall : fieldC w ≠ 2 := by rw [h.1]; decide
  rw [decodeWord, if_neg hHalt, if_neg hRet, if_neg hCall, if_pos h]

theorem decodeWord_unknown (hHalt : w ≠ 0x0000) (hRet : w ≠ 0x00EE) (hCall : fieldC w ≠ 2)
    (hAdd : ¬(fieldC w = 8 ∧ fieldD w = 4)) :
    decodeWord w = .unknown (fieldC w) (fieldX w) (fieldY w) (fieldD w) := by
  rw [decodeWord, if_neg hHalt, if_neg hRet, if_neg hCall, if_neg hAdd]

end Decoder

end Sys2Proof

/-!
PROOFS. The obligations of 30_encoding.md on the pattern table and the split into fields.
-/

namespace Sys2Proof

/-- Settles O2: CALL's and ADD's masks are tests of the fields, so each class is one branch of the decoder. -/
theorem decoderFollowsThePatternTable : Obligations.DecoderFollowsThePatternTable := by
  intro w
  rw [← fieldC_eq_ofNat, ← fieldX_eq_ofNat, ← fieldY_eq_ofNat, ← fieldD_eq_ofNat, ← fieldNNN_eq_ofNat]
  refine ⟨?halt, ?ret, ?call, ?add, ?unknown⟩
  case halt => rintro rfl; rfl
  case ret => rintro rfl; rfl
  case call => exact fun hCall => decodeWord_call ((call_pattern_iff w).mp hCall)
  case add => exact fun hAdd => decodeWord_add ((add_pattern_iff w).mp hAdd)
  case unknown =>
    intro hHalt hRet hCall hAdd
    exact decodeWord_unknown hHalt hRet (mt (call_pattern_iff w).mpr hCall) (mt (add_pattern_iff w).mpr hAdd)

/-- Settles O3: the fields joined are the word, and or-ing the shifted fields is joining them. -/
theorem fieldSplitIsLossless : Obligations.FieldSplitIsLossless := by
  intro w
  exact ⟨append_fields w, (shiftLeft_or_eq_append ..).trans (append_fields w)⟩

end Sys2Proof

/-!
SUPPORT. The advance of `pc` as a number, and a step by what the two bytes at `pc` decode to.
-/

namespace Sys2Proof.Machine

/-- From an address a fetch admits, the advance does not wrap (40_sequencer.md R93). -/
theorem pc_add_two {pc : Word} (h : pc.toNat ≤ 0xFFE) : (pc + 2).toNat = pc.toNat + 2 :=
  BitVec.toNat_add_of_lt (y := 2#16) (by rw [BitVec.toNat_ofNat]; omega)

section StepByVariant
variable {s : State} (hrun : s.run = .running) (hsp : s.sp.toNat ≤ 16) (hpc : s.pc.toNat ≤ 0xFFE)
include hrun hsp hpc

theorem step_of_decodeBytes_instr {i : Instr}
    (h : decodeBytes (Memory.read s.mem s.pc.toNat) (Memory.read s.mem (s.pc.toNat + 1)) = .instr i) :
    step s = exec i { s with pc := s.pc + 2 } := by
  rw [step_eq_dispatch hrun hsp hpc, h]
  rfl

theorem step_of_decodeBytes_unknown {c x y d : Nibble}
    (h : decodeBytes (Memory.read s.mem s.pc.toNat) (Memory.read s.mem (s.pc.toNat + 1)) = .unknown c x y d) :
    step s = execUnknown { s with pc := s.pc + 2 } := by
  rw [step_eq_dispatch hrun hsp hpc, h]
  rfl

end StepByVariant

theorem exec_halt (s : State) : exec .halt s = .next { s with run := .halted } := rfl

end Sys2Proof.Machine

/-!
PROOFS. The obligations of 40_sequencer.md on the advance of `pc` and on HALT.
-/

namespace Sys2Proof.Machine

/-- Settles O8: the advance does not wrap, and the step is the decoded variant's effect after it. -/
theorem stepRunsTheDecodedInstructionAfterTheAdvance :
    Obligations.StepRunsTheDecodedInstructionAfterTheAdvance := by
  intro s hrun hsp hpc
  refine ⟨pc_add_two hpc, ?instr, ?unknown⟩
  case instr => exact fun _ h => step_of_decodeBytes_instr hrun hsp hpc h
  case unknown => exact fun _ _ _ _ h => step_of_decodeBytes_unknown hrun hsp hpc h

/-- Settles O15: two zero bytes decode to HALT, whose effect the step runs on the state with the advanced pc. -/
theorem haltEndsTheRunAndChangesNothingElse : Obligations.HaltEndsTheRunAndChangesNothingElse := by
  refine ⟨exec_halt, ?step⟩
  intro s hrun hsp hpc hhigh hlow
  have hdecode :
      decodeBytes (Memory.read s.mem s.pc.toNat) (Memory.read s.mem (s.pc.toNat + 1)) = .instr .halt := by
    rw [hhigh, hlow]; rfl
  rw [step_of_decodeBytes_instr hrun hsp hpc hdecode, exec_halt]

end Sys2Proof.Machine

/-!
SUPPORT. The ALU's sum and carry as numbers, ADD's word as four nibbles, and what the state after ADD holds.
-/

namespace Sys2Proof

/-- ADD's opcode bits or-ed with its shifted operands are the opcode's two nibbles joined around them
(41_arithmetic.md R113). -/
theorem addWord_eq_append (x y : Nibble) :
    (0x8004 : Word) ||| (x.setWidth 16 <<< 8) ||| (y.setWidth 16 <<< 4) = (0x8#4 ++ x ++ y ++ 0x4#4 : Word) := by
  have hopcode : (0x8004 : Word) = ((0x8#4).setWidth 16 <<< 12) ||| (0x4#4).setWidth 16 := rfl
  rw [← shiftLeft_or_eq_append, hopcode]
  ac_rfl

theorem decodeWord_addWord (x y : Nibble) :
    decodeWord ((0x8004 : Word) ||| (x.setWidth 16 <<< 8) ||| (y.setWidth 16 <<< 4)) = .instr (.add x y) := by
  obtain ⟨hC, hX, hY, hD⟩ := fields_of_nibbles 0x8#4 x y 0x4#4
  rw [addWord_eq_append, decodeWord_add ⟨hC, hD⟩, hX, hY]

end Sys2Proof

namespace Sys2Proof.Machine

section Alu
variable (a b : Byte)

theorem aluAdd_sum_toNat : (aluAdd a b).1.toNat = (a.toNat + b.toNat) % 256 := by
  rw [aluAdd_sum, BitVec.toNat_add]

/-- Two bytes sum to less than 512, so the carry is one bit (41_arithmetic.md R110). -/
theorem aluAdd_carry_eq_ite : (aluAdd a b).2.toNat = if 255 < a.toNat + b.toNat then 1 else 0 := by
  have ha := a.isLt
  have hb := b.isLt
  rw [aluAdd_carry]
  split <;> omega

theorem aluAdd_carry_eq_one_iff : (aluAdd a b).2 = 1 ↔ 255 < a.toNat + b.toNat := by
  rw [← BitVec.toNat_inj, aluAdd_carry_eq_ite]
  split <;> simp [*]

end Alu

section AfterAdd
variable (s : State) (x y : Nibble)

@[simp] theorem readSlot_writeCarry (c : BitVec 1) (j : Nibble) : readSlot (writeCarry s c) j = readSlot s j := rfl
@[simp] theorem memRead_writeCarry (c : BitVec 1) (a : Addr) : memRead (writeCarry s c) a = memRead s a := rfl

/-- The state ADD leaves: the sum of the old operands written, then the carry (41_arithmetic.md R113 to R115). -/
def stateAfterAdd : State :=
  writeCarry (writeReg s x (aluAdd (readReg s x) (readReg s y)).1) (aluAdd (readReg s x) (readReg s y)).2

theorem exec_add : exec (.add x y) s = .next (stateAfterAdd s x y) := rfl

/-- The flag write leaves the sum in any destination but VF (41_arithmetic.md R115). -/
theorem readReg_stateAfterAdd_dest (hx : x ≠ 15) :
    readReg (stateAfterAdd s x y) x = (aluAdd (readReg s x) (readReg s y)).1 := by
  rw [stateAfterAdd, readReg_writeCarry, if_neg hx, readReg_writeReg_self]

theorem readReg_stateAfterAdd_flag :
    readReg (stateAfterAdd s x y) 15 = (aluAdd (readReg s x) (readReg s y)).2.setWidth 8 := by
  rw [stateAfterAdd, readReg_writeCarry, if_pos rfl]

theorem readReg_stateAfterAdd_other {i : Nibble} (hx : i ≠ x) (hflag : i ≠ 15) :
    readReg (stateAfterAdd s x y) i = readReg s i := by
  rw [stateAfterAdd, readReg_writeCarry, if_neg hflag, readReg_writeReg_of_ne s x i _ hx]

end AfterAdd

end Sys2Proof.Machine

/-!
PROOFS. The obligations of 41_arithmetic.md on the ALU and on ADD.
-/

namespace Sys2Proof.Machine

/-- Settles O16: the sum and the carry are the remainder and the quotient of the numbers' sum by 256. -/
theorem aluAddIsUnsignedAdditionWithCarry : Obligations.AluAddIsUnsignedAdditionWithCarry := by
  intro a b
  exact ⟨aluAdd_sum_toNat a b, aluAdd_carry a b, aluAdd_carry_eq_one_iff a b⟩

/-- Settles O18: ADD always completes; its two writes reach Vx and VF alone, the flag's last. -/
theorem addWritesTheSumThenTheCarry : Obligations.AddWritesTheSumThenTheCarry := by
  intro s x y
  refine ⟨decodeWord_addWord x y, stateAfterAdd s x y, exec_add s x y, ?dest, ?flag, ?other, ?frame⟩
  case dest =>
    intro hx
    rw [readReg_stateAfterAdd_dest s x y hx, aluAdd_sum_toNat]
  case flag =>
    rw [readReg_stateAfterAdd_flag, BitVec.toNat_setWidth_of_le (by decide), aluAdd_carry_eq_ite]
  case other => exact fun i hx hflag => readReg_stateAfterAdd_other s x y hx hflag
  case frame => simp [stateAfterAdd]

end Sys2Proof.Machine

/-!
SUPPORT. Push and pop by the number of the slot they reach, and CALL and RET by the stack pointer they find.
-/

namespace Sys2Proof.Machine

section PushAndPop
variable (s : State) (v : Word)

@[simp] theorem readReg_push (i : Nibble) : readReg (push s v) i = readReg s i := rfl
@[simp] theorem memRead_push (a : Addr) : memRead (push s v) a = memRead s a := rfl
@[simp] theorem readReg_pop (i : Nibble) : readReg (pop s).2 i = readReg s i := rfl
@[simp] theorem memRead_pop (a : Addr) : memRead (pop s).2 a = memRead s a := rfl

theorem readSlot_push_self : readSlot (push s v) (BitVec.ofNat 4 s.sp.toNat) = v := by
  rw [readSlot_push, slotIndex_eq_ofNat, if_pos rfl]

variable {s}

theorem readSlot_push_of_ne (hsp : s.sp.toNat < 16) {j : Nibble} (hj : j.toNat ≠ s.sp.toNat) :
    readSlot (push s v) j = readSlot s j := by
  have hne : j ≠ slotIndex s.sp := fun h => hj (by rw [h, slotIndex_toNat hsp])
  rw [readSlot_push, if_neg hne]

theorem pop_value_eq_readSlot (hsp : 0 < s.sp.toNat) :
    (pop s).1 = readSlot s (BitVec.ofNat 4 (s.sp.toNat - 1)) := by
  rw [pop_value, slotIndex_pred hsp]

end PushAndPop

section CallAndRet
variable {s : State}

/-- A CALL target is zero-extended, so it keeps its number (30_encoding.md R72). -/
theorem callTarget_toNat (nnn : Addr) : (callTarget nnn).toNat = nnn.toNat :=
  BitVec.toNat_setWidth_of_le (by decide)

theorem exec_call_of_lt (hsp : s.sp.toNat < 16) (nnn : Addr) :
    exec (.call nnn) s = .next { push s s.pc with pc := callTarget nnn } :=
  execCall_of_lt hsp nnn

theorem exec_ret_of_pos (hpos : 0 < s.sp.toNat) (hsp : s.sp.toNat ≤ 16) :
    exec .ret s = .next { (pop s).2 with pc := (pop s).1 } :=
  execRet_of_pos hpos hsp

theorem exec_ret_of_sp_eq_zero (hsp : s.sp.toNat = 0) :
    exec .ret s = .next { s with run := .faulted, cause := .stackUnderflow } :=
  if_pos (BitVec.eq_of_toNat_eq hsp)

end CallAndRet

theorem decodeWord_retWord : decodeWord 0x00EE = .instr .ret := rfl

end Sys2Proof.Machine

/-!
PROOFS. The obligations of 42_call_return.md on push and pop, on the return address of a CALL and on RET.
-/

namespace Sys2Proof.Machine

/-- Settles O19: a push writes the one slot `sp` names and a pop writes none. -/
theorem pushAndPopFollowTheStackDiscipline : Obligations.PushAndPopFollowTheStackDiscipline := by
  refine ⟨?push, ?pop⟩
  case push =>
    intro s v hsp
    have hother : ∀ j : Nibble, j.toNat ≠ s.sp.toNat → readSlot (push s v) j = readSlot s j :=
      fun _ hj => readSlot_push_of_ne v hsp hj
    exact ⟨readSlot_push_self s v, sp_add_one hsp, hother, readReg_push s v, push_pc s v, push_run s v,
      push_cause s v, memRead_push s v⟩
  case pop =>
    intro s hpos _
    exact ⟨pop_value_eq_readSlot hpos, sp_sub_one hpos, readSlot_pop s, readReg_pop s, pop_pc s, pop_run s,
      pop_cause s, memRead_pop s⟩

/-- Settles O22: the CALL runs after the advance, so the pc it pushes is `A + 2`, which does not wrap. -/
theorem callPushesTheAddressAfterIt : Obligations.CallPushesTheAddressAfterIt := by
  intro s nnn hrun hsp hpc hdecode
  have hstep : step s = .next { push (advancePc s) (s.pc + 2) with pc := callTarget nnn } :=
    (step_of_decodeBytes_instr hrun hsp.le hpc hdecode).trans (exec_call_of_lt (s := advancePc s) hsp nnn)
  refine ⟨_, hstep, ?returnAddress, callTarget_toNat nnn, sp_add_one hsp, hrun⟩
  case returnAddress =>
    calc (readSlot (push (advancePc s) (s.pc + 2)) (BitVec.ofNat 4 s.sp.toNat)).toNat
      _ = (s.pc + 2).toNat := congrArg BitVec.toNat (readSlot_push_self (advancePc s) (s.pc + 2))
      _ = s.pc.toNat + 2 := pc_add_two hpc

/-- Settles O23: with a live entry RET is a pop into pc, and with none it is the underflow alone. -/
theorem retPopsTheReturnAddressOrUnderflows : Obligations.RetPopsTheReturnAddressOrUnderflows := by
  refine ⟨decodeWord_retWord, ?live, fun _ hsp => exec_ret_of_sp_eq_zero hsp⟩
  case live =>
    intro s hpos hsp
    exact ⟨_, exec_ret_of_pos hpos hsp, pop_value_eq_readSlot hpos, sp_sub_one hpos, readSlot_pop s, readReg_pop s,
      pop_run s, pop_cause s, memRead_pop s⟩

end Sys2Proof.Machine

/-!
SUPPORT. The word of an instruction from its operands, the word of a variant, the words that are no instruction, and
two joined bytes as a number.
-/

namespace Sys2Proof

/-- CALL's opcode bits or-ed with its target are the opcode's nibble joined before it (42_call_return.md R135). -/
theorem callWord_eq_append (nnn : Addr) : (0x2000 : Word) ||| nnn.setWidth 16 = (0x2#4 ++ nnn : Word) := by
  rw [BitVec.append_def]
  rfl

theorem decodeWord_callWord (nnn : Addr) : decodeWord ((0x2000 : Word) ||| nnn.setWidth 16) = .instr (.call nnn) := by
  obtain ⟨hC, hNNN⟩ := fields_of_target 0x2#4 nnn
  rw [callWord_eq_append, decodeWord_call hC, hNNN]

/-- The decoder undoes the encoder (30_encoding.md R80). -/
theorem decodeWord_encode (i : Instr) : decodeWord (encode i) = .instr i := by
  cases i with
  | halt => rfl
  | add x y => rw [encode, ← addWord_eq_append, decodeWord_addWord]
  | call nnn => rw [encode, ← callWord_eq_append, decodeWord_callWord]
  | ret => rfl

theorem encode_injective : Function.Injective encode := by
  intro i j h
  have hdecode := congrArg decodeWord h
  rw [decodeWord_encode, decodeWord_encode] at hdecode
  exact Variant.instr.inj hdecode

/-- The high byte counts 256 times (20_memory.md R54). -/
theorem joinBytes_toNat (hi lo : Byte) : (joinBytes hi lo).toNat = 256 * hi.toNat + lo.toNat := by
  have hlo := lo.isLt
  rw [joinBytes, BitVec.toNat_append, ← Nat.shiftLeft_add_eq_or_of_lt hlo, Nat.shiftLeft_eq, Nat.mul_comm]

theorem decodeBytes_high_low (w : Word) : decodeBytes (highByte w) (lowByte w) = decodeWord w := by
  rw [decodeBytes, joinBytes_high_low]

section Variants
variable (w : Word)

/-- The major opcode joined to the target is the word. -/
theorem append_fieldC_fieldNNN : (fieldC w ++ fieldNNN w : Word) = w := by
  have hjoin : fieldC w ++ fieldNNN w = w.extractLsb' 0 16 := BitVec.extractLsb'_append_extractLsb'_eq_extractLsb' rfl
  rw [hjoin, BitVec.extractLsb'_eq_self]

/-- The UNKNOWN fields a decoder may answer, as the four patterns they avoid (30_encoding.md R73, R75). -/
theorem wf_unknown_iff (c x y d : Nibble) :
    (Variant.unknown c x y d).wf = true ↔
      ¬(c = 0 ∧ x = 0 ∧ y = 0 ∧ d = 0) ∧ ¬(c = 0 ∧ x = 0 ∧ y = 0xE ∧ d = 0xE) ∧ c ≠ 2 ∧ ¬(c = 8 ∧ d = 4) := by
  simp only [Variant.wf, Bool.not_eq_true', Bool.or_eq_false_iff, decide_eq_false_iff_not, and_assoc, ne_eq]

theorem Instr.wf_eq_true (i : Instr) : i.wf = true := by
  cases i with
  | halt => exact Laws.MatchesTableRow.halt.1
  | add x y => exact (Laws.MatchesTableRow.add x y).1
  | call nnn => exact (Laws.MatchesTableRow.call nnn).1
  | ret => exact Laws.MatchesTableRow.ret.1

variable {w}

/-- The fields of a word are those of another word only if the words are equal (30_encoding.md R76). -/
theorem eq_of_fields {v : Word} (hC : fieldC w = fieldC v) (hX : fieldX w = fieldX v) (hY : fieldY w = fieldY v)
    (hD : fieldD w = fieldD v) : w = v := by
  rw [← append_fields w, hC, hX, hY, hD, append_fields]

/-- The classes of 30_encoding.md R73, each with what the decoder answers: an instruction whose word it is, or UNKNOWN
with fields that match no pattern. -/
theorem decodeWord_cases (w : Word) :
    (∃ i : Instr, w = encode i ∧ decodeWord w = .instr i) ∨
    (decodeWord w = .unknown (fieldC w) (fieldX w) (fieldY w) (fieldD w) ∧
      (Variant.unknown (fieldC w) (fieldX w) (fieldY w) (fieldD w)).wf = true) := by
  by_cases hHalt : w = 0x0000
  · exact .inl ⟨.halt, hHalt, by rw [hHalt]; rfl⟩
  by_cases hRet : w = 0x00EE
  · exact .inl ⟨.ret, hRet, by rw [hRet]; rfl⟩
  by_cases hCall : fieldC w = 0x2#4
  · refine .inl ⟨.call (fieldNNN w), ?_, decodeWord_call hCall⟩
    rw [encode, ← hCall, append_fieldC_fieldNNN]
  by_cases hAdd : fieldC w = 0x8#4 ∧ fieldD w = 0x4#4
  · refine .inl ⟨.add (fieldX w) (fieldY w), ?_, decodeWord_add hAdd⟩
    rw [encode, ← hAdd.1, ← hAdd.2, append_fields]
  · refine .inr ⟨decodeWord_unknown hHalt hRet hCall hAdd, (wf_unknown_iff ..).mpr ⟨?_, ?_, hCall, hAdd⟩⟩
    · exact fun ⟨hC, hX, hY, hD⟩ => hHalt (eq_of_fields hC hX hY hD)
    · exact fun ⟨hC, hX, hY, hD⟩ => hRet (eq_of_fields hC hX hY hD)

theorem decodeWord_eq_instr_iff {i : Instr} : decodeWord w = .instr i ↔ w = encode i := by
  constructor
  · intro h
    obtain ⟨j, hw, hj⟩ | ⟨hunknown, -⟩ := decodeWord_cases w
    · rw [hw, Variant.instr.inj (h.symm.trans hj)]
    · exact nomatch h.symm.trans hunknown
  · rintro rfl
    exact decodeWord_encode i

/-- Well-formed UNKNOWN fields are what their word decodes to (30_encoding.md R75). -/
theorem decodeWord_append_of_wf {c x y d : Nibble} (h : (Variant.unknown c x y d).wf = true) :
    decodeWord (c ++ x ++ y ++ d : Word) = .unknown c x y d := by
  obtain ⟨hC, hX, hY, hD⟩ := fields_of_nibbles c x y d
  obtain ⟨hHalt, hRet, hCall, hAdd⟩ := (wf_unknown_iff c x y d).mp h
  rw [decodeWord_unknown, hC, hX, hY, hD]
  case hHalt =>
    intro h0
    rw [h0] at hC hX hY hD
    exact hHalt ⟨hC.symm, hX.symm, hY.symm, hD.symm⟩
  case hRet =>
    intro hEE
    rw [hEE] at hC hX hY hD
    exact hRet ⟨hC.symm, hX.symm, hY.symm, hD.symm⟩
  case hCall => rwa [hC]
  case hAdd => rwa [hC, hD]

end Variants

/-- An instruction is HALT, RET, a target or two registers. -/
def instrEquiv : Instr ≃ (Unit ⊕ Unit) ⊕ (Addr ⊕ Nibble × Nibble) where
  toFun
    | .halt => .inl (.inl ())
    | .ret => .inl (.inr ())
    | .call nnn => .inr (.inl nnn)
    | .add x y => .inr (.inr (x, y))
  invFun
    | .inl (.inl ()) => .halt
    | .inl (.inr ()) => .ret
    | .inr (.inl nnn) => .call nnn
    | .inr (.inr (x, y)) => .add x y
  left_inv i := by cases i <;> rfl
  right_inv p := by rcases p with (_ | _) | _ | _ <;> rfl

theorem natCard_bitVec (n : Nat) : Nat.card (BitVec n) = 2 ^ n := by
  rw [Nat.card_congr BitVec.equivFin.toEquiv, Nat.card_fin]

theorem natCard_instr : Nat.card Instr = 4354 := by
  rw [Nat.card_congr instrEquiv, Nat.card_sum, Nat.card_sum, Nat.card_sum, Nat.card_prod, natCard_bitVec, natCard_bitVec,
    Nat.card_unique]
  rfl

/-- A family of instructions has as many words as it has operands. -/
theorem ncard_decodeWord_eq_instr {α : Type} {f : α → Instr} (hf : Function.Injective f) :
    Set.ncard {w : Word | ∃ a, decodeWord w = .instr (f a)} = Nat.card α := by
  have hrange : {w : Word | ∃ a, decodeWord w = .instr (f a)} = Set.range (encode ∘ f) := by
    ext w
    simp only [Set.mem_ofPred_eq, decodeWord_eq_instr_iff, Set.mem_range, Function.comp_apply, eq_comm]
  rw [hrange, Set.ncard_range_of_injective (encode_injective.comp hf)]

theorem ncard_decodeWord_eq_single (i : Instr) : Set.ncard {w : Word | decodeWord w = .instr i} = 1 := by
  simp only [decodeWord_eq_instr_iff, Set.ofPred_eq_eq_singleton, Set.ncard_singleton]

/-- The UNKNOWN words are those that are no instruction's word. -/
theorem unknown_words_eq_compl :
    {w : Word | ∃ c x y d, decodeWord w = .unknown c x y d} = {w : Word | ∃ i, decodeWord w = .instr i}ᶜ := by
  ext w
  simp only [Set.mem_ofPred_eq, Set.mem_compl_iff, not_exists]
  constructor
  · rintro ⟨c, x, y, d, h⟩ i hi
    exact nomatch h.symm.trans hi
  · intro hnone
    obtain ⟨i, -, hi⟩ | ⟨hunknown, -⟩ := decodeWord_cases w
    · exact absurd hi (hnone i)
    · exact ⟨_, _, _, _, hunknown⟩

theorem ncard_unknown_words : Set.ncard {w : Word | ∃ c x y d, decodeWord w = .unknown c x y d} = 61182 := by
  have hinstr : Set.ncard {w : Word | ∃ i, decodeWord w = .instr i} = Nat.card Instr :=
    ncard_decodeWord_eq_instr Function.injective_id
  rw [unknown_words_eq_compl, Set.ncard_compl, hinstr, natCard_instr, natCard_bitVec]
  rfl

end Sys2Proof

/-!
PROOFS. The obligations of 30_encoding.md on the source's words, on decoding after encoding and on the classes of words.
-/

namespace Sys2Proof

/-- Settles O1, by evaluating the decoder on each word. -/
theorem sourceWordsDecodeToTheirVariants : Obligations.SourceWordsDecodeToTheirVariants := by
  unfold Obligations.SourceWordsDecodeToTheirVariants
  decide

/-- Settles O4: joining the opcode's nibbles to the operands is or-ing them in place, and the two bytes joined are the
word. -/
theorem decodeOfEncodeIsTheInstruction : Obligations.DecodeOfEncodeIsTheInstruction := by
  refine ⟨rfl, rfl, fun x y => (addWord_eq_append x y).symm, fun nnn => (callWord_eq_append nnn).symm, ?eachInstr⟩
  case eachInstr =>
    intro i
    refine ⟨decodeWord_encode i, highByte (encode i), lowByte (encode i), rfl, ?value, ?decoded⟩
    case value => rw [← joinBytes_toNat, joinBytes_high_low]
    case decoded => rw [decodeBytes_high_low, decodeWord_encode]

/-- Settles O5: a word is an instruction's or its own four fields joined, and the decoder undoes both encodings. -/
theorem wordsAndVariantsCorrespond : Obligations.WordsAndVariantsCorrespond := by
  refine ⟨?word, ?variant⟩
  case word =>
    intro w
    obtain ⟨i, hw, hi⟩ | ⟨hunknown, hwf⟩ := decodeWord_cases w
    · rw [hi]
      exact ⟨i.wf_eq_true, hw.symm⟩
    · rw [hunknown]
      exact ⟨hwf, append_fields w⟩
  case variant =>
    intro v hwf
    cases v with
    | instr i => exact decodeWord_encode i
    | unknown c x y d => exact decodeWord_append_of_wf hwf

/-- Settles O6: the masks test fields that differ between the patterns, each family of instructions has one word per
choice of operands, and the UNKNOWN words are all the others. -/
theorem decodeClassesAreDisjointAndCounted : Obligations.DecodeClassesAreDisjointAndCounted := by
  refine ⟨?call, ?add, ncard_decodeWord_eq_single .halt, ncard_decodeWord_eq_single .ret, ?calls, ?adds,
    ncard_unknown_words⟩
  case call =>
    intro w hcall
    have hC := (call_pattern_iff w).mp hcall
    refine ⟨fun hadd => ?_, ne_halt_and_ne_ret_of_fieldC (by rw [hC]; decide)⟩
    have hC' := ((add_pattern_iff w).mp hadd).1
    exact absurd (hC.symm.trans hC') (by decide)
  case add =>
    intro w hadd
    have hC := ((add_pattern_iff w).mp hadd).1
    exact ne_halt_and_ne_ret_of_fieldC (by rw [hC]; decide)
  case calls =>
    exact (ncard_decodeWord_eq_instr (f := Instr.call) fun _ _ => Instr.call.inj).trans (natCard_bitVec 12)
  case adds =>
    have hinj : Function.Injective fun p : Nibble × Nibble => Instr.add p.1 p.2 := by
      rintro ⟨x, y⟩ ⟨x', y'⟩ h
      obtain ⟨hx, hy⟩ := Instr.add.inj h
      exact Prod.ext hx hy
    have hcount := ncard_decodeWord_eq_instr hinj
    rw [Nat.card_prod, natCard_bitVec] at hcount
    simp only [Prod.exists] at hcount
    exact hcount

end Sys2Proof

/-!
SUPPORT. The step by what it finds in the state, the effects a decoded variant can have, and from them everything a
step that answers a next state can have done.
-/

namespace Sys2Proof.Machine

section StepByState
variable {s : State}

theorem step_of_not_running (hrun : s.run ≠ .running) : step s = .fault (.notRunning s.run) := by
  unfold step takeStep
  cases h : s.run with
  | running => exact absurd h hrun
  | idle => rfl
  | halted => rfl
  | faulted => rfl

variable (hrun : s.run = .running)
include hrun

theorem step_of_illFormed (hill : 16 < s.sp.toNat ∨ 0x1000 < s.pc.toNat) : step s = .refused .illFormedState := by
  have hadm : ¬ admissible s = true := by rw [admissible_iff]; omega
  simp only [step, takeStep, hrun, if_neg hadm]

theorem step_of_fetch_fault (hsp : s.sp.toNat ≤ 16) (hlow : 0xFFE < s.pc.toNat) (hhigh : s.pc.toNat ≤ 0x1000) :
    step s = .next { s with run := .faulted, cause := .fetchOutOfRange } := by
  have hadm := (admissible_iff s).mpr ⟨hsp, hhigh⟩
  simp only [step, takeStep, hrun, hadm, if_true, runInstruction, fetchWord_of_gt hlow, raise]

end StepByState

section CallAndRetByStackPointer
variable {s : State}

theorem exec_call_of_full (hsp : s.sp.toNat = 16) (nnn : Addr) :
    exec (.call nnn) s = .next { s with run := .faulted, cause := .stackOverflow } :=
  if_pos (BitVec.eq_of_toNat_eq hsp)

theorem exec_call_of_gt (hsp : 16 < s.sp.toNat) (nnn : Addr) : exec (.call nnn) s = .refused .illFormedState := by
  have hne : ¬ s.sp = Config.spFull := fun h => by rw [h, spFull_toNat] at hsp; omega
  have hgt : s.sp > Config.spFull := by rw [gt_iff_lt, BitVec.lt_def, spFull_toNat]; omega
  simp only [exec, execCall, if_neg hne, if_pos hgt]

theorem exec_ret_of_gt (hsp : 16 < s.sp.toNat) : exec .ret s = .refused .illFormedState := by
  have hne : ¬ s.sp = 0 := fun h => by simp [h] at hsp
  have hgt : s.sp > Config.spFull := by rw [gt_iff_lt, BitVec.lt_def, spFull_toNat]; omega
  simp only [exec, execRet, if_neg hne, if_pos hgt]

end CallAndRetByStackPointer

/-- What a variant does to the state `a` whose `pc` is already advanced, by the branches of the four instructions and
UNKNOWN (40_sequencer.md R96, R97, 41_arithmetic.md R113, 42_call_return.md R134 to R137). -/
inductive VariantEffect (a : State) : Variant → State → Prop
  | halt : VariantEffect a (.instr .halt) { a with run := .halted }
  | add (x y : Nibble) : VariantEffect a (.instr (.add x y)) (stateAfterAdd a x y)
  | call (nnn : Addr) (hsp : a.sp.toNat < 16) :
      VariantEffect a (.instr (.call nnn)) { push a a.pc with pc := callTarget nnn }
  | callOverflow (nnn : Addr) (hsp : a.sp.toNat = 16) :
      VariantEffect a (.instr (.call nnn)) { a with run := .faulted, cause := .stackOverflow }
  | ret (hpos : 0 < a.sp.toNat) (hsp : a.sp.toNat ≤ 16) :
      VariantEffect a (.instr .ret) { (pop a).2 with pc := (pop a).1 }
  | retUnderflow (hsp : a.sp.toNat = 0) :
      VariantEffect a (.instr .ret) { a with run := .faulted, cause := .stackUnderflow }
  | unknown (c x y d : Nibble) :
      VariantEffect a (.unknown c x y d) { a with run := .faulted, cause := .illegalInstruction }

/-- The effects are exactly what the dispatch answers. -/
theorem dispatch_eq_next_iff {v : Variant} {a t : State} : dispatch v a = .next t ↔ VariantEffect a v t := by
  constructor
  · intro h
    rcases v with (_ | ⟨x, y⟩ | nnn | _) | ⟨c, x, y, d⟩
    case instr.halt => cases h; exact .halt
    case instr.add => cases h; exact .add x y
    case instr.call =>
      obtain ⟨hsp, rfl⟩ | ⟨hsp, rfl⟩ := execCall_next h
      · exact .callOverflow nnn (congrArg BitVec.toNat hsp)
      · exact .call nnn hsp
    case instr.ret =>
      obtain ⟨hsp, rfl⟩ | ⟨hpos, hsp, rfl⟩ := execRet_next h
      · exact .retUnderflow (congrArg BitVec.toNat hsp)
      · exact .ret hpos hsp
    case unknown => cases h; exact .unknown c x y d
  · intro h
    cases h with
    | halt => rfl
    | add x y => rfl
    | call nnn hsp => exact exec_call_of_lt hsp nnn
    | callOverflow nnn hsp => exact exec_call_of_full hsp nnn
    | ret hpos hsp => exact exec_ret_of_pos hpos hsp
    | retUnderflow hsp => exact exec_ret_of_sp_eq_zero hsp
    | unknown c x y d => rfl

/-- With `sp` at most 16 every variant has an effect. -/
theorem exists_variantEffect {a : State} (hsp : a.sp.toNat ≤ 16) (v : Variant) : ∃ t, VariantEffect a v t := by
  rcases v with (_ | ⟨x, y⟩ | nnn | _) | ⟨c, x, y, d⟩
  case instr.halt => exact ⟨_, .halt⟩
  case instr.add => exact ⟨_, .add x y⟩
  case instr.call =>
    obtain hlt | hfull := hsp.lt_or_eq
    · exact ⟨_, .call nnn hlt⟩
    · exact ⟨_, .callOverflow nnn hfull⟩
  case instr.ret =>
    obtain hempty | hpos := Nat.eq_zero_or_pos a.sp.toNat
    · exact ⟨_, .retUnderflow hempty⟩
    · exact ⟨_, .ret hpos hsp⟩
  case unknown => exact ⟨_, .unknown c x y d⟩

/-- Everything a step that answers a next state can have done: the fetch fault, or the effect of the variant the two
bytes at `pc` decode to, on the state with the advanced pc (40_sequencer.md R91). -/
theorem step_cases {s t : State} (h : step s = .next t) :
    s.run = .running ∧ s.sp.toNat ≤ 16 ∧
    ((0xFFE < s.pc.toNat ∧ s.pc.toNat ≤ 0x1000 ∧ t = { s with run := .faulted, cause := .fetchOutOfRange }) ∨
     (s.pc.toNat ≤ 0xFFE ∧ ∃ v,
       decodeBytes (Memory.read s.mem s.pc.toNat) (Memory.read s.mem (s.pc.toNat + 1)) = v ∧
       VariantEffect (advancePc s) v t)) := by
  obtain ⟨hrun, hsp, hpc, -⟩ := step_next h
  refine ⟨hrun, hsp, ?_⟩
  obtain hlow | hhigh := le_or_gt s.pc.toNat 0xFFE
  · rw [step_eq_dispatch hrun hsp hlow] at h
    exact .inr ⟨hlow, _, rfl, dispatch_eq_next_iff.mp h⟩
  · rw [step_of_fetch_fault hrun hsp hhigh hpc] at h
    cases h
    exact .inl ⟨hhigh, hpc, rfl⟩

/-- A RUNNING state that is not ill-formed has a next state (93_implementation_defined.md U13). -/
theorem exists_step {s : State} (hrun : s.run = .running) (hsp : s.sp.toNat ≤ 16) (hpc : s.pc.toNat ≤ 0x1000) :
    ∃ t, step s = .next t := by
  obtain hlow | hhigh := le_or_gt s.pc.toNat 0xFFE
  · rw [step_eq_dispatch hrun hsp hlow]
    obtain ⟨t, ht⟩ := exists_variantEffect (a := advancePc s) hsp _
    exact ⟨t, dispatch_eq_next_iff.mpr ht⟩
  · exact ⟨_, step_of_fetch_fault hrun hsp hhigh hpc⟩

section WhatEffectsKeep
variable {a t : State} {v : Variant}

/-- No effect touches memory (20_memory.md R51). -/
theorem VariantEffect.mem_eq (h : VariantEffect a v t) : t.mem = a.mem := by
  cases h <;> rfl

/-- No effect depends on memory (20_memory.md R51). -/
theorem VariantEffect.with_mem (h : VariantEffect a v t) (m : Memory) :
    VariantEffect { a with mem := m } v { t with mem := m } := by
  cases h with
  | halt => exact .halt
  | add x y => exact .add x y
  | call nnn hsp => exact .call nnn hsp
  | callOverflow nnn hsp => exact .callOverflow nnn hsp
  | ret hpos hsp => exact .ret hpos hsp
  | retUnderflow hsp => exact .retUnderflow hsp
  | unknown c x y d => exact .unknown c x y d

/-- Only a CALL and a RET that do not fault move `pc`, `sp` or a slot away from the advanced state's. -/
theorem VariantEffect.stack_cases (h : VariantEffect a v t) :
    (t.pc = a.pc ∧ t.sp = a.sp ∧ t.stack = a.stack) ∨
    (∃ nnn, v = .instr (.call nnn) ∧ a.sp.toNat < 16 ∧ t = { push a a.pc with pc := callTarget nnn }) ∨
    (v = .instr .ret ∧ 0 < a.sp.toNat ∧ t = { (pop a).2 with pc := (pop a).1 }) := by
  cases h with
  | call nnn hsp => exact .inr (.inl ⟨nnn, rfl, hsp, rfl⟩)
  | ret hpos hsp => exact .inr (.inr ⟨rfl, hpos, rfl⟩)
  | halt => exact .inl ⟨rfl, rfl, rfl⟩
  | add x y => exact .inl ⟨rfl, rfl, rfl⟩
  | callOverflow nnn hsp => exact .inl ⟨rfl, rfl, rfl⟩
  | retUnderflow hsp => exact .inl ⟨rfl, rfl, rfl⟩
  | unknown c x y d => exact .inl ⟨rfl, rfl, rfl⟩

/-- The cause an effect raises, `none` where it raises none (60_exceptions.md R152 to R154). -/
def raisedCause (sp : StackPtr) : Variant → FaultCause
  | .unknown _ _ _ _ => .illegalInstruction
  | .instr (.call _) => if sp.toNat = 16 then .stackOverflow else .none
  | .instr .ret => if sp.toNat = 0 then .stackUnderflow else .none
  | .instr .halt => .none
  | .instr (.add _ _) => .none

theorem VariantEffect.cause_eq (h : VariantEffect a v t) (hcause : a.cause = .none) :
    t.cause = raisedCause a.sp v := by
  cases h with
  | halt => exact hcause
  | add x y => exact hcause
  | call nnn hsp => rw [raisedCause, if_neg hsp.ne]; exact hcause
  | callOverflow nnn hsp => rw [raisedCause, if_pos hsp]
  | ret hpos hsp => rw [raisedCause, if_neg hpos.ne']; exact hcause
  | retUnderflow hsp => rw [raisedCause, if_pos hsp]
  | unknown c x y d => rfl

/-- An effect that ends FAULTED wrote the run state and a cause and nothing else (60_exceptions.md R155). -/
theorem VariantEffect.of_faulted (h : VariantEffect a v t) (hrun : a.run = .running) (hfault : t.run = .faulted) :
    ∃ c : FaultCause, (c = .illegalInstruction ∨ c = .stackOverflow ∨ c = .stackUnderflow) ∧
      t = { a with run := .faulted, cause := c } := by
  cases h with
  | callOverflow nnn hsp => exact ⟨.stackOverflow, .inr (.inl rfl), rfl⟩
  | retUnderflow hsp => exact ⟨.stackUnderflow, .inr (.inr rfl), rfl⟩
  | unknown c x y d => exact ⟨.illegalInstruction, .inl rfl, rfl⟩
  | halt => exact nomatch hfault
  | add x y => exact nomatch hrun.symm.trans hfault
  | call nnn hsp => exact nomatch hrun.symm.trans hfault
  | ret hpos hsp => exact nomatch hrun.symm.trans hfault

theorem VariantEffect.run_ne_idle (h : VariantEffect a v t) (hrun : a.run = .running) : t.run ≠ .idle := by
  have hkept : a.run ≠ .idle := by rw [hrun]; decide
  cases h with
  | halt => nofun
  | add x y => exact hkept
  | call nnn hsp => exact hkept
  | callOverflow nnn hsp => nofun
  | ret hpos hsp => exact hkept
  | retUnderflow hsp => nofun
  | unknown c x y d => nofun

end WhatEffectsKeep

section WhatStepsKeep
variable {s t : State}

theorem step_mem_eq (h : step s = .next t) : t.mem = s.mem := by
  obtain ⟨-, -, ⟨-, -, rfl⟩ | ⟨-, v, -, heff⟩⟩ := step_cases h
  · rfl
  · exact heff.mem_eq

/-- A step sees of memory the two bytes at `pc` alone (20_memory.md R51). -/
theorem step_with_mem {m : Memory} (hhigh : Memory.read m s.pc.toNat = Memory.read s.mem s.pc.toNat)
    (hlow : Memory.read m (s.pc.toNat + 1) = Memory.read s.mem (s.pc.toNat + 1)) (h : step s = .next t) :
    step { s with mem := m } = .next { t with mem := m } := by
  obtain ⟨hrun, hsp, ⟨hlo, hhi, rfl⟩ | ⟨hpc, v, hv, heff⟩⟩ := step_cases h
  · exact step_of_fetch_fault (s := { s with mem := m }) hrun hsp hlo hhi
  · rw [step_eq_dispatch (s := { s with mem := m }) hrun hsp hpc, hhigh, hlow, hv]
    exact dispatch_eq_next_iff.mpr (heff.with_mem m)

theorem step_run_ne_idle (h : step s = .next t) : t.run ≠ .idle := by
  obtain ⟨hrun, -, ⟨-, -, rfl⟩ | ⟨-, v, -, heff⟩⟩ := step_cases h
  · nofun
  · exact heff.run_ne_idle hrun

/-- A step that ends FAULTED is the fetch fault, with `pc` as it was, or one of the other three causes after the
advance (60_exceptions.md R155, R156). -/
theorem step_faulted (h : step s = .next t) (hfault : t.run = .faulted) :
    (0xFFE < s.pc.toNat ∧ t = { s with run := .faulted, cause := .fetchOutOfRange }) ∨
    (s.pc.toNat ≤ 0xFFE ∧ ∃ c : FaultCause, (c = .illegalInstruction ∨ c = .stackOverflow ∨ c = .stackUnderflow) ∧
      t = { advancePc s with run := .faulted, cause := c }) := by
  obtain ⟨hrun, -, ⟨hpc, -, ht⟩ | ⟨hpc, v, -, heff⟩⟩ := step_cases h
  · exact .inl ⟨hpc, ht⟩
  · exact .inr ⟨hpc, heff.of_faulted hrun hfault⟩

theorem runsTo_mem_eq {k : Nat} (h : RunsTo k s t) : t.mem = s.mem := by
  induction k generalizing s with
  | zero => rw [(runsTo_zero s t).mp h]
  | succ k ih =>
    obtain ⟨u, hstep, hrest⟩ := (runsTo_succ k s t).mp h
    rw [ih hrest, step_mem_eq hstep]

end WhatStepsKeep

end Sys2Proof.Machine

/-!
SUPPORT. The invariants of 10_state.md R36 through the advance, each effect and each step, and the measure that every
step of a run lowers.
-/

namespace Sys2Proof.Machine

section Invariant
variable {s a t : State} {v : Variant}

/-- Raising a cause keeps the invariants (60_exceptions.md R155). -/
theorem CoreInv.raised (h : CoreInv a) {c : FaultCause} (hc : c ≠ .none) :
    CoreInv { a with run := .faulted, cause := c } :=
  ⟨h.sp_le, h.pc_le, h.slot_le, ⟨fun hnone => absurd hnone hc, fun hrun => absurd rfl hrun⟩⟩

/-- The advance from a fetchable address ends at most at 0x1000 (10_state.md R25). -/
theorem CoreInv.advancePc (h : CoreInv s) (hpc : s.pc.toNat ≤ 0xFFE) : CoreInv (advancePc s) := by
  refine ⟨h.sp_le, ?_, h.slot_le, h.cause_iff⟩
  rw [advancePc_pc, pc_add_two hpc]
  omega

/-- A push stores the advanced `pc`, and a CALL target has 12 bits. -/
theorem CoreInv.call (h : CoreInv a) (nnn : Addr) (hsp : a.sp.toNat < 16) :
    CoreInv { push a a.pc with pc := callTarget nnn } := by
  refine ⟨?sp, ?pc, ?slot, h.cause_iff⟩
  case sp => exact (sp_add_one hsp).trans_le hsp
  case pc => exact (callTarget_toNat nnn).trans_le nnn.isLt.le
  case slot =>
    intro j
    change (readSlot (push a a.pc) j).toNat ≤ 0x1000
    rw [readSlot_push]
    split
    · exact h.pc_le
    · exact h.slot_le j

/-- A popped `pc` is a slot's value. -/
theorem CoreInv.ret (h : CoreInv a) (hpos : 0 < a.sp.toNat) : CoreInv { (pop a).2 with pc := (pop a).1 } := by
  refine ⟨?sp, h.slot_le _, h.slot_le, h.cause_iff⟩
  case sp => exact (sp_sub_one hpos).trans_le ((Nat.sub_le _ _).trans h.sp_le)

theorem VariantEffect.coreInv (heff : VariantEffect a v t) (hrun : a.run = .running) (h : CoreInv a) : CoreInv t := by
  have hcause : a.cause = .none := h.cause_iff.mpr (by rw [hrun]; decide)
  cases heff with
  | halt => exact ⟨h.sp_le, h.pc_le, h.slot_le, ⟨fun _ => nofun, fun _ => hcause⟩⟩
  | add x y => exact ⟨h.sp_le, h.pc_le, h.slot_le, h.cause_iff⟩
  | call nnn hsp => exact h.call nnn hsp
  | callOverflow nnn hsp => exact h.raised (by decide)
  | ret hpos hsp => exact h.ret hpos
  | retUnderflow hsp => exact h.raised (by decide)
  | unknown c x y d => exact h.raised (by decide)

theorem step_coreInv (hinv : CoreInv s) (h : step s = .next t) : CoreInv t := by
  obtain ⟨hrun, -, ⟨-, -, rfl⟩ | ⟨hpc, v, -, heff⟩⟩ := step_cases h
  · exact hinv.raised (by decide)
  · exact heff.coreInv hrun (hinv.advancePc hpc)

end Invariant

section Termination
variable {s a t : State} {v : Variant}

/-- The address at which frame `i` goes on: a caller's return address, the running frame's `pc`, and for a frame that is
not entered an address past memory. -/
def frameAddr (s : State) (i : Nat) : Nat :=
  if i < s.sp.toNat then (readSlot s (BitVec.ofNat 4 i)).toNat
  else if i = s.sp.toNat then s.pc.toNat
  else 0x1001

theorem frameAddr_caller {i : Nat} (hi : i < s.sp.toNat) :
    frameAddr s i = (readSlot s (BitVec.ofNat 4 i)).toNat := if_pos hi

theorem frameAddr_running (s : State) : frameAddr s s.sp.toNat = s.pc.toNat := by
  rw [frameAddr, if_neg (lt_irrefl _), if_pos rfl]

theorem frameAddr_unentered {i : Nat} (hi : s.sp.toNat < i) : frameAddr s i = 0x1001 := by
  rw [frameAddr, if_neg hi.le.not_gt, if_neg hi.ne']

/-- How far each frame still is from the end of memory, the oldest frame first. -/
def room (s : State) : Lex (Fin 17 → Nat) := toLex fun i => 0x1001 - frameAddr s i

/-- No effect moves a caller's frame: a RET goes on where the newest caller's slot says. -/
theorem VariantEffect.frameAddr_eq (h : VariantEffect a v t) (hsp : a.sp.toNat ≤ 16) {i : Nat}
    (hi : i < a.sp.toNat) : frameAddr t i = frameAddr a i := by
  rw [frameAddr_caller hi]
  obtain ⟨-, hspEq, hstack⟩ | ⟨nnn, -, hlt, rfl⟩ | ⟨-, hpos, rfl⟩ := h.stack_cases
  · rw [frameAddr_caller (hspEq ▸ hi), readSlot, readSlot]
    simp only [hstack]
  · have hti : i < (a.sp + 1).toNat := by rw [sp_add_one hlt]; omega
    have hne : (BitVec.ofNat 4 i).toNat ≠ a.sp.toNat := by rw [BitVec.toNat_ofNat]; omega
    exact (frameAddr_caller hti).trans (congrArg BitVec.toNat (readSlot_push_of_ne a.pc hlt hne))
  · have htsp : (a.sp - 1).toNat = a.sp.toNat - 1 := sp_sub_one hpos
    obtain hlt | heq : i < (a.sp - 1).toNat ∨ i = (a.sp - 1).toNat := by omega
    · exact frameAddr_caller hlt
    · rw [heq, htsp, ← pop_value_eq_readSlot hpos, ← htsp]
      exact frameAddr_running { (pop a).2 with pc := (pop a).1 }

/-- The frame that was running goes on at the advanced `pc` or later: a CALL leaves that address in its slot, and a RET
ends the frame. -/
theorem VariantEffect.pc_le_frameAddr (h : VariantEffect a v t) (hpc : a.pc.toNat ≤ 0x1000) :
    a.pc.toNat ≤ frameAddr t a.sp.toNat := by
  obtain ⟨hpcEq, hspEq, -⟩ | ⟨nnn, -, hlt, rfl⟩ | ⟨-, hpos, rfl⟩ := h.stack_cases
  · rw [← hspEq, frameAddr_running, hpcEq]
  · have hcaller : a.sp.toNat < (a.sp + 1).toNat := by rw [sp_add_one hlt]; omega
    have hslot : frameAddr { push a a.pc with pc := callTarget nnn } a.sp.toNat = a.pc.toNat :=
      (frameAddr_caller hcaller).trans (congrArg BitVec.toNat (readSlot_push_self a a.pc))
    exact hslot.ge
  · have hunentered : (a.sp - 1).toNat < a.sp.toNat := by rw [sp_sub_one hpos]; omega
    have hend : frameAddr { (pop a).2 with pc := (pop a).1 } a.sp.toNat = 0x1001 := frameAddr_unentered hunentered
    rw [hend]
    omega

/-- The callers' frames of the advanced state are those before the advance. -/
theorem frameAddr_advancePc {i : Nat} (hi : i < s.sp.toNat) : frameAddr (advancePc s) i = frameAddr s i := by
  rw [frameAddr_caller hi]
  exact frameAddr_caller (s := advancePc s) hi

/-- A step after which the core still runs lowers the room: at the frame that ran, and at none older. -/
theorem step_room_lt (h : step s = .next t) (hrun : t.run = .running) : room t < room s := by
  obtain ⟨-, hsp, ⟨-, -, rfl⟩ | ⟨hpc, v, -, heff⟩⟩ := step_cases h
  · exact nomatch hrun
  have hadv : (advancePc s).pc.toNat = s.pc.toNat + 2 := pc_add_two hpc
  refine ⟨⟨s.sp.toNat, by omega⟩, ?older, ?running⟩
  case older =>
    intro i hi
    change 0x1001 - frameAddr t i = 0x1001 - frameAddr s i
    rw [heff.frameAddr_eq hsp hi, frameAddr_advancePc hi]
  case running =>
    change 0x1001 - frameAddr t s.sp.toNat < 0x1001 - frameAddr s s.sp.toNat
    have hle : (advancePc s).pc.toNat ≤ frameAddr t s.sp.toNat := heff.pc_le_frameAddr (by omega)
    rw [frameAddr_running]
    omega

end Termination

end Sys2Proof.Machine

/-!
PROOFS. The obligations on the invariants of 10_state.md, on the outcomes of a step and on the end of every run.
-/

namespace Sys2Proof.Machine

/-- Settles O36, by the effects of the decoded variant on the advanced state. -/
theorem stepPreservesCoreInv : Obligations.StepPreservesCoreInv := by
  intro s t hinv h
  exact step_coreInv hinv h

/-- Settles O13: a legal RUNNING state has a next state, which is never IDLE, and its invariants pair the cause with
the run state. -/
theorem stepEndsInOneOfThreeOutcomes : Obligations.StepEndsInOneOfThreeOutcomes := by
  intro s hinv hrun
  obtain ⟨t, h⟩ := exists_step hrun hinv.sp_le hinv.pc_le
  have hcause := (step_coreInv hinv h).cause_iff
  refine ⟨t, h, ?_⟩
  cases htrun : t.run with
  | idle => exact absurd htrun (step_run_ne_idle h)
  | running => exact .inl ⟨rfl, hcause.mpr (by rw [htrun]; decide)⟩
  | halted => exact .inr (.inl ⟨rfl, hcause.mpr (by rw [htrun]; decide)⟩)
  | faulted => exact .inr (.inr ⟨rfl, fun hnone => hcause.mp hnone htrun⟩)

/-- Settles O38, by induction on the room: a step ends the run or leaves less room, and the frames' addresses are
ordered lexicographically with the oldest frame first, so calls and returns cannot gain room. -/
theorem everyRunEnds : Obligations.EveryRunEnds := by
  intro s hinv hrun
  induction hroom : room s using WellFoundedLT.induction generalizing s with
  | ind r ih =>
    subst hroom
    obtain ⟨t, h, ⟨htrun, -⟩ | ⟨htrun, -⟩ | ⟨htrun, -⟩⟩ := stepEndsInOneOfThreeOutcomes s hinv hrun
    · obtain ⟨k, u, hk, hstop⟩ := ih (room t) (step_room_lt h htrun) t (step_coreInv hinv h) htrun rfl
      exact ⟨k + 1, u, (runsTo_succ k s u).mpr ⟨t, h, hk⟩, hstop⟩
    · exact ⟨1, t, (runsTo_succ 0 s t).mpr ⟨t, h, (runsTo_zero t t).mpr rfl⟩, .inl htrun⟩
    · exact ⟨1, t, (runsTo_succ 0 s t).mpr ⟨t, h, (runsTo_zero t t).mpr rfl⟩, .inr htrun⟩

end Sys2Proof.Machine

/-!
PROOFS. The obligations of 20_memory.md and 40_sequencer.md on the fetch, on which steps are taken and on the next pc.
-/

namespace Sys2Proof.Machine

/-- Settles O7: the fetched word is the two bytes at `pc` joined high byte first, at every address. -/
theorem fetchIsBigEndianAtEveryAddress : Obligations.FetchIsBigEndianAtEveryAddress := by
  intro s hpc
  exact ⟨_, fetchWord_eq_read hpc, joinBytes_toNat ..⟩

/-- Settles O9: the step raises ILLEGAL_INSTRUCTION on the state with the advanced pc. -/
theorem unknownWordRaisesIllegalInstruction : Obligations.UnknownWordRaisesIllegalInstruction := by
  intro s c x y d hrun hsp hpc hdecode
  exact step_of_decodeBytes_unknown hrun hsp hpc hdecode

/-- Settles O10, by the step's fetch check. -/
theorem fetchPastTheEndRaisesFetchOutOfRange : Obligations.FetchPastTheEndRaisesFetchOutOfRange := by
  intro s hrun hsp hlow hhigh
  exact step_of_fetch_fault hrun hsp hlow hhigh

/-- Settles O11, by the step's check of the run state. -/
theorem noStepIsTakenOutsideRunning : Obligations.NoStepIsTakenOutsideRunning := by
  intro s hrun
  exact step_of_not_running hrun

/-- Settles O12: a RUNNING state that is not ill-formed has a next state, so it is not refused. -/
theorem exactlyIllFormedStatesAreRefused : Obligations.ExactlyIllFormedStatesAreRefused := by
  refine ⟨fun s hrun => ⟨?refused, step_of_illFormed hrun⟩,
    fun s nnn hsp => ⟨exec_call_of_gt hsp nnn, exec_ret_of_gt hsp⟩⟩
  case refused =>
    intro hrefused
    by_contra hlegal
    obtain ⟨t, h⟩ := exists_step hrun (by omega) (by omega)
    exact nomatch hrefused.symm.trans h

/-- Settles O14: each effect's pc is the row of its variant, and the fetch fault leaves pc as it was. -/
theorem nextPcFollowsTheSequencerTable : Obligations.NextPcFollowsTheSequencerTable := by
  intro s t h
  obtain ⟨-, -, ⟨hpc, -, rfl⟩ | ⟨hpc, v, hv, heff⟩⟩ := step_cases h
  · rw [if_pos hpc]
  rw [if_neg hpc.not_gt, hv]
  cases heff with
  | halt => rfl
  | add x y => rfl
  | call nnn hsp =>
    have hne : ¬ s.sp = 16 := fun hfull => absurd (congrArg BitVec.toNat hfull) hsp.ne
    exact (if_neg hne).symm
  | callOverflow nnn hsp => exact (if_pos (BitVec.eq_of_toNat_eq hsp)).symm
  | ret hpos hsp =>
    have hne : ¬ s.sp = 0 := fun hempty => absurd (congrArg BitVec.toNat hempty) hpos.ne'
    exact (pop_value_eq_readSlot (s := advancePc s) hpos).trans (if_neg hne).symm
  | retUnderflow hsp => exact (if_pos (BitVec.eq_of_toNat_eq hsp)).symm
  | unknown c x y d => rfl

end Sys2Proof.Machine

/-!
PROOFS. The obligations of 41_arithmetic.md on the ALU's laws, and of 42_call_return.md and 10_state.md on CALL, RET and
who changes the stack.
-/

namespace Sys2Proof.Machine

/-- Settles O17: sum and carry are functions of the sum of the two numbers, its remainder and quotient by 256. -/
theorem aluAddIsCommutativeAndLosesNothing : Obligations.AluAddIsCommutativeAndLosesNothing := by
  intro a b
  refine ⟨?comm, ?lossless⟩
  case comm =>
    apply Prod.ext
    · rw [aluAdd_sum, aluAdd_sum, BitVec.add_comm]
    · apply BitVec.eq_of_toNat_eq
      rw [aluAdd_carry, aluAdd_carry, Nat.add_comm]
  case lossless => rw [aluAdd_carry, aluAdd_sum_toNat, Nat.div_add_mod]

/-- Settles O20: CALL is a push of the pc it finds and a jump. -/
theorem callPushesThePcAndJumps : Obligations.CallPushesThePcAndJumps := by
  intro s nnn hsp
  exact ⟨decodeWord_callWord nnn, _, exec_call_of_lt hsp nnn, callTarget_toNat nnn, sp_add_one hsp,
    readSlot_push_self s s.pc, fun _ hj => readSlot_push_of_ne s.pc hsp hj, readReg_push s s.pc, push_run s s.pc,
    push_cause s s.pc, memRead_push s s.pc⟩

/-- Settles O21, by CALL's check of a full stack. -/
theorem callOnAFullStackOverflows : Obligations.CallOnAFullStackOverflows := by
  intro s nnn hsp
  exact exec_call_of_full hsp nnn

/-- Settles O24: the RET pops the slot the CALL pushed, which is live in the state it runs in, and no older one. -/
theorem retUndoesCall : Obligations.RetUndoesCall := by
  intro s nnn hsp
  refine ⟨_, exec_call_of_lt hsp nnn, ?_⟩
  intro u husp hlive
  have hsp' : u.sp.toNat = s.sp.toNat + 1 := (congrArg BitVec.toNat husp).trans (sp_add_one hsp)
  have hlive' : ∀ j : Nibble, j.toNat < s.sp.toNat + 1 → readSlot u j = readSlot (push s s.pc) j :=
    fun j hj => hlive j (hj.trans_eq (sp_add_one hsp).symm)
  refine ⟨_, exec_ret_of_pos (by omega) (by omega), ?pc, ?sp, ?older⟩
  case pc =>
    have hnewest : (BitVec.ofNat 4 s.sp.toNat).toNat < s.sp.toNat + 1 := by rw [BitVec.toNat_ofNat]; omega
    calc (pop u).1
      _ = readSlot u (BitVec.ofNat 4 (u.sp.toNat - 1)) := pop_value_eq_readSlot (by omega)
      _ = readSlot u (BitVec.ofNat 4 s.sp.toNat) := by rw [hsp', Nat.add_sub_cancel]
      _ = readSlot (push s s.pc) (BitVec.ofNat 4 s.sp.toNat) := hlive' _ hnewest
      _ = s.pc := readSlot_push_self s s.pc
  case sp =>
    calc u.sp - 1
      _ = s.sp + 1 - 1 := congrArg (· - 1) husp
      _ = s.sp := BitVec.add_sub_cancel ..
  case older =>
    intro j hj
    calc readSlot u j
      _ = readSlot (push s s.pc) j := hlive' j (by omega)
      _ = readSlot s j := readSlot_push_of_ne s.pc hsp hj.ne

/-- Settles O25: an effect other than a CALL's push and a RET's pop leaves `sp` and every slot. -/
theorem onlyCallAndRetChangeTheStack : Obligations.OnlyCallAndRetChangeTheStack := by
  intro s t h hchange
  have hunchanged : ¬(t.sp = s.sp ∧ t.stack = s.stack) := by
    rintro ⟨hspEq, hstack⟩
    obtain hsp | ⟨j, hj⟩ := hchange
    · exact hsp hspEq
    · exact hj (by simp only [readSlot, hstack])
  obtain ⟨-, -, ⟨-, -, rfl⟩ | ⟨-, v, hv, heff⟩⟩ := step_cases h
  · exact absurd ⟨rfl, rfl⟩ hunchanged
  obtain ⟨-, hspEq, hstack⟩ | ⟨nnn, rfl, hlt, rfl⟩ | ⟨rfl, hpos, rfl⟩ := heff.stack_cases
  · exact absurd ⟨hspEq, hstack⟩ hunchanged
  · refine .inl ⟨nnn, hv, sp_add_one hlt, ?_⟩
    exact fun j hj => readSlot_push_of_ne (s := advancePc s) (advancePc s).pc hlt hj
  · refine .inr ⟨hv, ?_, readSlot_pop (advancePc s)⟩
    have hsp : (s.sp - 1).toNat = s.sp.toNat - 1 := sp_sub_one hpos
    change s.sp.toNat = (s.sp - 1).toNat + 1
    change 0 < s.sp.toNat at hpos
    omega

end Sys2Proof.Machine

/-!
SUPPORT. When the steps of two states agree, and that the effects agree on states that differ in registers or in stale
slots alone.
-/

namespace Sys2Proof.Machine

/-- Two states with the same run state, `pc`, `sp` and memory take agreeing steps, if their fetch faults and the
dispatches of every variant agree. -/
theorem step_outcomesAgree {R : State → State → Prop} {s t : State} (hrun : t.run = s.run) (hpc : t.pc = s.pc)
    (hsp : t.sp = s.sp) (hmem : t.mem = s.mem)
    (hfault : R { s with run := .faulted, cause := .fetchOutOfRange } { t with run := .faulted, cause := .fetchOutOfRange })
    (hdispatch : ∀ v, OutcomesAgree R (dispatch v (advancePc s)) (dispatch v (advancePc t))) :
    OutcomesAgree R (step s) (step t) := by
  by_cases hs : s.run = .running
  case neg =>
    rw [step_of_not_running hs, step_of_not_running (hrun ▸ hs), hrun]
    exact rfl
  have ht : t.run = .running := hrun.trans hs
  by_cases hill : 16 < s.sp.toNat ∨ 0x1000 < s.pc.toNat
  case pos =>
    rw [step_of_illFormed hs hill, step_of_illFormed ht (by rwa [hsp, hpc])]
    exact rfl
  obtain ⟨hspLe, hpcLe⟩ : s.sp.toNat ≤ 16 ∧ s.pc.toNat ≤ 0x1000 := by omega
  by_cases hlow : s.pc.toNat ≤ 0xFFE
  case pos =>
    rw [step_eq_dispatch hs hspLe hlow, step_eq_dispatch ht (by rwa [hsp]) (by rwa [hpc]), hmem, hpc]
    exact hdispatch _
  case neg =>
    rw [step_of_fetch_fault hs hspLe (by omega) hpcLe,
      step_of_fetch_fault ht (by rwa [hsp]) (by rw [hpc]; omega) (by rwa [hpc])]
    exact hfault

/-- The dispatches agree if the states they are taken in have the same `sp` and each of the effects agrees. -/
theorem dispatch_outcomesAgree {R : State → State → Prop} {a b : State} (hsp : b.sp = a.sp)
    (hraised : ∀ c, R { a with run := .faulted, cause := c } { b with run := .faulted, cause := c })
    (hhalt : R { a with run := .halted } { b with run := .halted })
    (hadd : ∀ x y, R (stateAfterAdd a x y) (stateAfterAdd b x y))
    (hcall : ∀ nnn, a.sp.toNat < 16 →
      R { push a a.pc with pc := callTarget nnn } { push b b.pc with pc := callTarget nnn })
    (hret : 0 < a.sp.toNat → a.sp.toNat ≤ 16 →
      R { (pop a).2 with pc := (pop a).1 } { (pop b).2 with pc := (pop b).1 })
    (v : Variant) : OutcomesAgree R (dispatch v a) (dispatch v b) := by
  rcases v with (_ | ⟨x, y⟩ | nnn | _) | ⟨c, x, y, d⟩
  case instr.halt => exact hhalt
  case instr.add => exact hadd x y
  case instr.call =>
    change OutcomesAgree R (exec (.call nnn) a) (exec (.call nnn) b)
    obtain hlt | hfull | hgt := lt_trichotomy a.sp.toNat 16
    · rw [exec_call_of_lt hlt, exec_call_of_lt (by rwa [hsp])]
      exact hcall nnn hlt
    · rw [exec_call_of_full hfull, exec_call_of_full (by rwa [hsp])]
      exact hraised .stackOverflow
    · rw [exec_call_of_gt hgt, exec_call_of_gt (by rwa [hsp])]
      exact rfl
  case instr.ret =>
    change OutcomesAgree R (exec .ret a) (exec .ret b)
    obtain hempty | hpos := Nat.eq_zero_or_pos a.sp.toNat
    · rw [exec_ret_of_sp_eq_zero hempty, exec_ret_of_sp_eq_zero (by rwa [hsp])]
      exact hraised .stackUnderflow
    obtain hle | hgt := le_or_gt a.sp.toNat 16
    · rw [exec_ret_of_pos hpos hle, exec_ret_of_pos (by rwa [hsp]) (by rwa [hsp])]
      exact hret hpos hle
    · rw [exec_ret_of_gt hgt, exec_ret_of_gt (by rwa [hsp])]
      exact rfl
  case unknown => exact hraised .illegalInstruction

section Registers
variable {a b : State} (h : AgreeButRegs a b)
include h

theorem AgreeButRegs.raised (c : FaultCause) :
    AgreeButRegs { a with run := .faulted, cause := c } { b with run := .faulted, cause := c } :=
  ⟨h.pc_eq, h.stack_eq, h.sp_eq, rfl, rfl, h.mem_eq⟩

theorem AgreeButRegs.advancePc : AgreeButRegs (advancePc a) (advancePc b) :=
  ⟨congrArg (· + 2) h.pc_eq, h.stack_eq, h.sp_eq, h.run_eq, h.cause_eq, h.mem_eq⟩

/-- No effect but ADD's reads a register, and ADD's writes registers alone (10_state.md R23). -/
theorem AgreeButRegs.dispatch (v : Variant) : OutcomesAgree AgreeButRegs (dispatch v a) (dispatch v b) := by
  refine dispatch_outcomesAgree h.sp_eq h.raised ?halt ?add ?call ?ret v
  case halt => exact ⟨h.pc_eq, h.stack_eq, h.sp_eq, rfl, h.cause_eq, h.mem_eq⟩
  case add => exact fun _ _ => ⟨h.pc_eq, h.stack_eq, h.sp_eq, h.run_eq, h.cause_eq, h.mem_eq⟩
  case call =>
    intro nnn _
    refine ⟨rfl, ?_, congrArg (· + 1) h.sp_eq, h.run_eq, h.cause_eq, h.mem_eq⟩
    simp only [push, writeSlot, h.stack_eq, h.sp_eq, h.pc_eq]
  case ret =>
    intro _ _
    refine ⟨?_, h.stack_eq, congrArg (· - 1) h.sp_eq, h.run_eq, h.cause_eq, h.mem_eq⟩
    simp only [pop_value, readSlot, h.stack_eq, h.sp_eq]

end Registers

section StaleSlots
variable {a b : State} (h : AgreeButStaleSlots a b)
include h

theorem AgreeButStaleSlots.raised (c : FaultCause) :
    AgreeButStaleSlots { a with run := .faulted, cause := c } { b with run := .faulted, cause := c } :=
  ⟨h.regs_eq, h.pc_eq, h.sp_eq, h.live_eq, rfl, rfl, h.mem_eq⟩

theorem AgreeButStaleSlots.advancePc : AgreeButStaleSlots (advancePc a) (advancePc b) :=
  ⟨h.regs_eq, congrArg (· + 2) h.pc_eq, h.sp_eq, h.live_eq, h.run_eq, h.cause_eq, h.mem_eq⟩

/-- ADD reads and writes registers, which the two states share. -/
theorem AgreeButStaleSlots.add (x y : Nibble) : AgreeButStaleSlots (stateAfterAdd a x y) (stateAfterAdd b x y) := by
  refine ⟨?_, h.pc_eq, h.sp_eq, h.live_eq, h.run_eq, h.cause_eq, h.mem_eq⟩
  simp only [stateAfterAdd, writeCarry, writeReg, readReg, h.regs_eq]

/-- A CALL writes the one stale slot that it makes live. -/
theorem AgreeButStaleSlots.call (nnn : Addr) (hsp : a.sp.toNat < 16) :
    AgreeButStaleSlots { push a a.pc with pc := callTarget nnn } { push b b.pc with pc := callTarget nnn } := by
  refine ⟨h.regs_eq, rfl, congrArg (· + 1) h.sp_eq, ?live, h.run_eq, h.cause_eq, h.mem_eq⟩
  case live =>
    intro j hj
    have hj' : j.toNat < a.sp.toNat + 1 := hj.trans_eq (sp_add_one hsp)
    change readSlot (push b b.pc) j = readSlot (push a a.pc) j
    rw [readSlot_push, readSlot_push, h.sp_eq, h.pc_eq]
    by_cases hnewest : j = slotIndex a.sp
    · rw [if_pos hnewest, if_pos hnewest]
    · have hne : j.toNat ≠ a.sp.toNat := fun heq =>
        hnewest (BitVec.eq_of_toNat_eq (heq.trans (slotIndex_toNat hsp).symm))
      rw [if_neg hnewest, if_neg hnewest, h.live_eq j (by omega)]

/-- A RET reads the newest live slot, and the slots that stay live were live before it. -/
theorem AgreeButStaleSlots.ret (hpos : 0 < a.sp.toNat) (hsp : a.sp.toNat ≤ 16) :
    AgreeButStaleSlots { (pop a).2 with pc := (pop a).1 } { (pop b).2 with pc := (pop b).1 } := by
  refine ⟨h.regs_eq, ?pc, congrArg (· - 1) h.sp_eq, ?live, h.run_eq, h.cause_eq, h.mem_eq⟩
  case pc =>
    have hnewest : (BitVec.ofNat 4 (a.sp.toNat - 1)).toNat < a.sp.toNat := by rw [BitVec.toNat_ofNat]; omega
    change (pop b).1 = (pop a).1
    rw [pop_value_eq_readSlot hpos, pop_value_eq_readSlot (by rwa [h.sp_eq]), h.sp_eq, h.live_eq _ hnewest]
  case live =>
    intro j hj
    have hj' : j.toNat < a.sp.toNat - 1 := hj.trans_eq (sp_sub_one hpos)
    exact h.live_eq j (by omega)

theorem AgreeButStaleSlots.dispatch (v : Variant) :
    OutcomesAgree AgreeButStaleSlots (dispatch v a) (dispatch v b) := by
  refine dispatch_outcomesAgree h.sp_eq h.raised ?halt h.add h.call h.ret v
  case halt => exact ⟨h.regs_eq, h.pc_eq, h.sp_eq, h.live_eq, rfl, h.cause_eq, h.mem_eq⟩

end StaleSlots

end Sys2Proof.Machine

/-!
PROOFS. The obligations of 10_state.md on what no step depends on: stale slots and, in control flow, registers.
-/

namespace Sys2Proof.Machine

/-- Settles O26: a CALL overwrites the stale slot it makes live, and a RET reads a live one. -/
theorem staleSlotsAffectNoStep : Obligations.StaleSlotsAffectNoStep := by
  intro s t h
  exact step_outcomesAgree h.run_eq h.pc_eq h.sp_eq h.mem_eq (h.raised .fetchOutOfRange) h.advancePc.dispatch

/-- Settles O27: only ADD reads registers, and it writes nothing else. -/
theorem registersNeverAffectControlFlow : Obligations.RegistersNeverAffectControlFlow := by
  intro s t h
  exact step_outcomesAgree h.run_eq h.pc_eq h.sp_eq h.mem_eq (h.raised .fetchOutOfRange) h.advancePc.dispatch

end Sys2Proof.Machine

/-!
SUPPORT. What each admitted host request does, said once, and what it keeps.
-/

namespace Sys2Proof.Machine

/-- Every admitted request of the host with its effect (70_reset_and_hazards.md R180, R186 to R188). -/
inductive HostEffect (s : State) : HostRequest → State → Prop
  | reset : HostEffect s .reset State.reset
  | writeMem (addr : Nat) (v : Byte) (hidle : s.run = .idle) (haddr : addr < 4096) :
      HostEffect s (.writeMem addr v) (memWrite s (BitVec.ofNat 12 addr) v)
  | writeReg (i : Nat) (v : Byte) (hidle : s.run = .idle) (hi : i < 16) :
      HostEffect s (.writeReg i v) (writeReg s (BitVec.ofNat 4 i) v)
  | run (hidle : s.run = .idle) : HostEffect s .run { s with run := .running }

theorem hostExec_next {q : HostRequest} {s t : State} (h : hostExec q s = .next t) : HostEffect s q t := by
  cases q with
  | reset => cases h; exact .reset
  | writeMem addr v =>
    obtain ⟨hidle, haddr, rfl⟩ := hostWriteMem_next h
    exact .writeMem addr v hidle haddr
  | writeReg i v =>
    obtain ⟨hidle, hi, rfl⟩ := hostWriteReg_next h
    exact .writeReg i v hidle hi
  | run =>
    obtain ⟨hidle, rfl⟩ := hostRun_next h
    exact .run hidle

section Admission
variable {s : State}

theorem hostExec_writeMem_of_idle (hidle : s.run = .idle) {addr : Nat} (haddr : addr < 4096) (v : Byte) :
    hostExec (.writeMem addr v) s = .next (memWrite s (BitVec.ofNat 12 addr) v) := if_pos ⟨hidle, haddr⟩

theorem hostExec_writeMem_refused {addr : Nat} (h : s.run ≠ .idle ∨ 4096 ≤ addr) (v : Byte) :
    hostExec (.writeMem addr v) s = .refused .usageError :=
  if_neg fun ⟨hidle, haddr⟩ => h.elim (absurd hidle) (not_le_of_gt haddr)

theorem hostExec_writeReg_of_idle (hidle : s.run = .idle) {i : Nat} (hi : i < 16) (v : Byte) :
    hostExec (.writeReg i v) s = .next (writeReg s (BitVec.ofNat 4 i) v) := if_pos ⟨hidle, hi⟩

theorem hostExec_writeReg_refused {i : Nat} (h : s.run ≠ .idle ∨ 16 ≤ i) (v : Byte) :
    hostExec (.writeReg i v) s = .refused .usageError :=
  if_neg fun ⟨hidle, hi⟩ => h.elim (absurd hidle) (not_le_of_gt hi)

theorem hostExec_run_of_idle (hidle : s.run = .idle) : hostExec .run s = .next { s with run := .running } :=
  if_pos hidle

theorem hostExec_run_refused (h : s.run ≠ .idle) : hostExec .run s = .refused .usageError := if_neg h

end Admission

@[simp] theorem readReg_reset (i : Nibble) : readReg State.reset i = 0 := Vector.getElem_replicate ..
@[simp] theorem readSlot_reset (j : Nibble) : readSlot State.reset j = 0 := Vector.getElem_replicate ..

theorem reset_coreInv : CoreInv State.reset := by
  refine ⟨by decide, by decide, fun j => ?_, by decide⟩
  rw [readSlot_reset]
  decide

section WhatRequestsKeep
variable {s t : State} {q : HostRequest}

theorem HostEffect.coreInv (heff : HostEffect s q t) (h : CoreInv s) : CoreInv t := by
  cases heff with
  | reset => exact reset_coreInv
  | writeMem addr v hidle haddr => exact ⟨h.sp_le, h.pc_le, h.slot_le, h.cause_iff⟩
  | writeReg i v hidle hi => exact ⟨h.sp_le, h.pc_le, h.slot_le, h.cause_iff⟩
  | run hidle =>
    have hcause : s.cause = .none := h.cause_iff.mpr (by rw [hidle]; decide)
    exact ⟨h.sp_le, h.pc_le, h.slot_le, ⟨fun _ => nofun, fun _ => hcause⟩⟩

theorem HostEffect.mem_wf (heff : HostEffect s q t) (h : Memory.wf s.mem = true) : Memory.wf t.mem = true := by
  cases heff with
  | reset => exact reset_mem_wf
  | writeMem addr v hidle haddr => exact memWrite_wf h _ v
  | writeReg i v hidle hi => exact h
  | run hidle => exact h

/-- Where a run can start: the elements the host cannot write are as reset left them (70_reset_and_hazards.md R187). -/
structure AtEntry (s : State) : Prop where
  pc_eq : s.pc = 0
  sp_eq : s.sp = 0
  slot_eq : ∀ j : Nibble, readSlot s j = 0
  cause_eq : s.cause = .none
  run_eq : s.run = .idle ∨ s.run = .running

theorem reset_atEntry : AtEntry State.reset := ⟨rfl, rfl, readSlot_reset, rfl, .inl rfl⟩

theorem HostEffect.atEntry (heff : HostEffect s q t) (h : AtEntry s) : AtEntry t := by
  cases heff with
  | reset => exact reset_atEntry
  | writeMem addr v hidle haddr => exact ⟨h.pc_eq, h.sp_eq, h.slot_eq, h.cause_eq, h.run_eq⟩
  | writeReg i v hidle hi => exact ⟨h.pc_eq, h.sp_eq, h.slot_eq, h.cause_eq, h.run_eq⟩
  | run hidle => exact ⟨h.pc_eq, h.sp_eq, h.slot_eq, h.cause_eq, .inr rfl⟩

theorem hostSession_atEntry {qs : List HostRequest} (hs : HostSession qs s t) (h : AtEntry s) : AtEntry t := by
  induction qs generalizing s with
  | nil => rwa [← (hostSession_nil s t).mp hs]
  | cons q qs ih =>
    obtain ⟨u, hu, hrest⟩ := (hostSession_cons q qs s t).mp hs
    exact ih hrest ((hostExec_next hu).atEntry h)

end WhatRequestsKeep

end Sys2Proof.Machine

/-!
PROOFS. The obligations of 20_memory.md and 10_state.md on who reads and writes memory and on its canonical form.
-/

namespace Sys2Proof.Machine

/-- Settles O28: no effect names memory, the fetch reads two bytes of it, and two host requests write it. -/
theorem noInstructionReadsOrWritesMemory : Obligations.NoInstructionReadsOrWritesMemory := by
  refine ⟨?exec, fun s t m hhigh hlow h => ⟨step_mem_eq h, step_with_mem hhigh hlow h⟩, ?host⟩
  case exec =>
    intro i s t m h
    have heff : VariantEffect s (.instr i) t := dispatch_eq_next_iff.mp h
    exact ⟨heff.mem_eq, dispatch_eq_next_iff.mpr (heff.with_mem m)⟩
  case host =>
    intro q s t a h hchanged
    cases hostExec_next h with
    | reset => exact .inl rfl
    | writeMem addr v hidle haddr => exact .inr ⟨addr, v, rfl⟩
    | writeReg i v hidle hi => exact absurd rfl hchanged
    | run hidle => exact absurd rfl hchanged

/-- Settles O29: neither the run request nor any step of the run writes memory. -/
theorem memoryIsConstantDuringARun : Obligations.MemoryIsConstantDuringARun := by
  intro s u t k hrequest hrun a
  obtain ⟨-, rfl⟩ := hostRun_next hrequest
  rw [memRead, memRead, runsTo_mem_eq hrun]

/-- Settles O30: a step leaves memory, and each request keeps the form. -/
theorem memoryStaysCanonical : Obligations.MemoryStaysCanonical := by
  refine ⟨?step, fun q s t hwf h => (hostExec_next h).mem_wf hwf⟩
  case step =>
    intro s t hwf h
    rwa [step_mem_eq h]

end Sys2Proof.Machine

/-!
SUPPORT. When each cause is raised after a fetch, and the faulting address from the advanced pc.
-/

namespace Sys2Proof.Machine

section RaisedCause
variable (sp : StackPtr) (v : Variant)

theorem raisedCause_ne_fetchOutOfRange : raisedCause sp v ≠ .fetchOutOfRange := by
  rcases v with (_ | ⟨x, y⟩ | nnn | _) | ⟨c, x, y, d⟩ <;> simp [raisedCause, ite_eq_iff']

theorem raisedCause_eq_illegalInstruction_iff :
    raisedCause sp v = .illegalInstruction ↔ ∃ c x y d, v = .unknown c x y d := by
  rcases v with (_ | ⟨x, y⟩ | nnn | _) | ⟨c, x, y, d⟩ <;> simp [raisedCause, ite_eq_iff']

theorem raisedCause_eq_stackOverflow_iff :
    raisedCause sp v = .stackOverflow ↔ sp.toNat = 16 ∧ ∃ nnn, v = .instr (.call nnn) := by
  rcases v with (_ | ⟨x, y⟩ | nnn | _) | ⟨c, x, y, d⟩ <;> simp [raisedCause, ite_eq_iff']

theorem raisedCause_eq_stackUnderflow_iff :
    raisedCause sp v = .stackUnderflow ↔ sp.toNat = 0 ∧ v = .instr .ret := by
  rcases v with (_ | ⟨x, y⟩ | nnn | _) | ⟨c, x, y, d⟩ <;> simp [raisedCause, ite_eq_iff']

end RaisedCause

/-- After the advance the instruction's address is two below `pc` (60_exceptions.md R158). -/
theorem faultPc_and_faultWord_of_raised {s : State} (hpc : s.pc.toNat ≤ 0xFFE) {c : FaultCause}
    (hc : c = .illegalInstruction ∨ c = .stackOverflow ∨ c = .stackUnderflow) :
    faultPc { advancePc s with run := .faulted, cause := c } = some s.pc ∧
    faultWord { advancePc s with run := .faulted, cause := c } = fetchWord s := by
  have hback : s.pc + 2 - 2 = s.pc := BitVec.add_sub_cancel ..
  have hword : some (joinBytes (memRead s (portAddr (s.pc + 2 - 2))) (memRead s (portAddr (s.pc + 2 - 2 + 1)))) =
      fetchWord s := by rw [hback, fetchWord_of_le hpc]
  rcases hc with rfl | rfl | rfl <;> exact ⟨congrArg some hback, hword⟩

end Sys2Proof.Machine

/-!
PROOFS. The obligations of 60_exceptions.md on faults and stop states.
-/

namespace Sys2Proof.Machine

/-- Settles O31: the fetch fault raises on the state as it was, the other three on the state with the advanced pc. -/
theorem faultsArePrecise : Obligations.FaultsArePrecise := by
  intro s t h hfault
  obtain ⟨-, rfl⟩ | ⟨-, c, hc, rfl⟩ := step_faulted h hfault
  · exact ⟨rfl, rfl, rfl, rfl, .inl ⟨rfl, rfl⟩⟩
  · exact ⟨rfl, rfl, rfl, rfl, .inr ⟨hc, rfl⟩⟩

/-- Settles O32: past 0xFFE the fetch check alone raises, and below it the cause is a function of variant and `sp`. -/
theorem eachCauseHasItsCondition : Obligations.EachCauseHasItsCondition := by
  intro s t hcause h
  obtain ⟨-, -, ⟨hpc, -, rfl⟩ | ⟨hpc, v, hv, heff⟩⟩ := step_cases h
  case inl =>
    have hnot : ¬ s.pc.toNat ≤ 0xFFE := hpc.not_ge
    simp [hpc, hnot]
  case inr =>
    have hnot : ¬ 0xFFE < s.pc.toNat := hpc.not_gt
    have hraised : t.cause = raisedCause s.sp v := heff.cause_eq hcause
    rw [hraised, hv]
    exact ⟨iff_of_false (raisedCause_ne_fetchOutOfRange s.sp v) hnot,
      (raisedCause_eq_illegalInstruction_iff s.sp v).trans (and_iff_right hpc).symm,
      (raisedCause_eq_stackOverflow_iff s.sp v).trans (and_iff_right hpc).symm,
      (raisedCause_eq_stackUnderflow_iff s.sp v).trans (and_iff_right hpc).symm⟩

/-- Settles O33: the fetch fault keeps pc, and the others leave it two past the instruction. -/
theorem faultAddressAndWordAreRecoverable : Obligations.FaultAddressAndWordAreRecoverable := by
  intro s t h hfault
  obtain ⟨hpc, rfl⟩ | ⟨hpc, c, hc, rfl⟩ := step_faulted h hfault
  · exact ⟨rfl, (fetchWord_of_gt hpc).symm⟩
  · exact faultPc_and_faultWord_of_raised hpc hc

/-- Settles O34: a step asks for RUNNING, and every request but reset for IDLE. -/
theorem onlyResetLeavesAStopState : Obligations.OnlyResetLeavesAStopState := by
  intro s hstop
  have hnotRunning : s.run ≠ .running := by obtain h | h := hstop <;> rw [h] <;> decide
  have hnotIdle : s.run ≠ .idle := by obtain h | h := hstop <;> rw [h] <;> decide
  refine ⟨fun t h => hnotRunning (step_cases h).1, rfl, fun q t h => ?request⟩
  case request =>
    cases hostExec_next h with
    | reset => rfl
    | writeMem addr v hidle haddr => exact absurd hidle hnotIdle
    | writeReg i v hidle hi => exact absurd hidle hnotIdle
    | run hidle => exact absurd hidle hnotIdle

end Sys2Proof.Machine

/-!
SUPPORT. A host index as a bit vector, and the state with a word placed at `pc`.
-/

namespace Sys2Proof.Machine

section HostReads
variable {s : State} (hrun : s.run ≠ .running)
include hrun

theorem hostRead_reg (i : Nibble) : hostRead (.reg i.toNat) s = .ok (readReg s i).toNat := by
  rw [hostRead_ok hrun ((wf_reg _).mpr i.isLt), elementValue, BitVec.ofNat_toNat, BitVec.setWidth_eq]

theorem hostRead_slot (j : Nibble) : hostRead (.slot j.toNat) s = .ok (readSlot s j).toNat := by
  rw [hostRead_ok hrun ((wf_slot _).mpr j.isLt), elementValue, BitVec.ofNat_toNat, BitVec.setWidth_eq]

theorem hostRead_memByte (a : Addr) : hostRead (.memByte a.toNat) s = .ok (memRead s a).toNat := by
  rw [hostRead_ok hrun ((wf_memByte _).mpr a.isLt), elementValue, BitVec.ofNat_toNat, BitVec.setWidth_eq]

end HostReads

section PlacedWord
variable (s : State) (w : Word)

theorem ofNat_toNat_mod : BitVec.ofNat 16 (w.toNat % 2 ^ 16) = w := by
  rw [Nat.mod_eq_of_lt w.isLt, BitVec.ofNat_toNat, BitVec.setWidth_eq]

theorem decodeTableWord_encode (i : Instr) : decodeTableWord 16 (encode i).toNat = some i := by
  simp only [decodeTableWord, ofNat_toNat_mod, decodeBytes_high_low, decodeWord_encode]

theorem withFetchWord_toNat : s.withFetchWord 16 w.toNat = placeWord (readyToRun s) w := by
  rw [State.withFetchWord, ofNat_toNat_mod]

/-- Made ready, a state is at an address a fetch can read (log 5). -/
theorem readyToRun_pc : (readyToRun s).pc = if s.pc.toNat ≤ 0xFFE then s.pc else 0 := by
  obtain hle | hgt := le_or_gt s.pc.toNat 0xFFE
  · have hfetch : ¬ s.pc > Config.lastFetch := by rw [gt_iff_lt, BitVec.lt_def, lastFetch_toNat]; omega
    exact (if_neg hfetch).trans (if_pos hle).symm
  · have hfetch : s.pc > Config.lastFetch := by rwa [gt_iff_lt, BitVec.lt_def, lastFetch_toNat]
    exact (if_pos hfetch).trans (if_neg hgt.not_ge).symm

theorem readyToRun_pc_le : (readyToRun s).pc.toNat ≤ 0xFFE := by
  rw [readyToRun_pc]
  split
  · assumption
  · decide

variable {s}

/-- The placed word's bytes stand at `pc` and after it, high byte first (20_memory.md R52). -/
theorem read_placeWord (hwf : Memory.wf s.mem = true) (hpc : s.pc.toNat ≤ 0xFFE) :
    Memory.read (placeWord s w).mem s.pc.toNat = highByte w ∧
    Memory.read (placeWord s w).mem (s.pc.toNat + 1) = lowByte w := by
  have hnext : (s.pc + 1).toNat = s.pc.toNat + 1 :=
    BitVec.toNat_add_of_lt (y := 1#16) (by rw [BitVec.toNat_ofNat]; omega)
  have hport : (portAddr s.pc).toNat = s.pc.toNat := portAddr_toNat (by omega)
  have hport' : (portAddr (s.pc + 1)).toNat = s.pc.toNat + 1 := (portAddr_toNat (by omega)).trans hnext
  have hhigh := memWrite_wf hwf (portAddr s.pc) (highByte w)
  refine ⟨?high, ?low⟩
  case high =>
    have hne : s.pc.toNat ≠ (portAddr (s.pc + 1)).toNat := by omega
    rw [placeWord, memWrite, Memory.read_write hhigh, if_neg hne, memWrite, Memory.read_write hwf, if_pos hport.symm]
  case low =>
    rw [placeWord, memWrite, Memory.read_write hhigh, if_pos hport'.symm]

theorem step_placeWord (hrun : s.run = .running) (hsp : s.sp.toNat ≤ 16) (hwf : Memory.wf s.mem = true)
    (hpc : s.pc.toNat ≤ 0xFFE) (i : Instr) :
    step (placeWord s (encode i)) = exec i { placeWord s (encode i) with pc := s.pc + 2 } := by
  obtain ⟨hhigh, hlow⟩ := read_placeWord (encode i) hwf hpc
  have hdecode : decodeBytes (Memory.read (placeWord s (encode i)).mem s.pc.toNat)
      (Memory.read (placeWord s (encode i)).mem (s.pc.toNat + 1)) = .instr i := by
    rw [hhigh, hlow, decodeBytes_high_low, decodeWord_encode]
  exact step_of_decodeBytes_instr (s := placeWord s (encode i)) hrun hsp hpc hdecode

end PlacedWord

end Sys2Proof.Machine

/-!
PROOFS. The obligations of 70_reset_and_hazards.md on reset and the host, and of 10_state.md on the run state.
-/

namespace Sys2Proof.Machine

/-- Settles O35: every slot is 0, the cause is NONE in IDLE, and memory lists nothing. -/
theorem resetSatisfiesCoreInv : Obligations.ResetSatisfiesCoreInv := ⟨reset_coreInv, reset_mem_wf⟩

/-- Settles O37, by the effect of each admitted request. -/
theorem hostRequestsPreserveCoreInv : Obligations.HostRequestsPreserveCoreInv := by
  intro q s t hinv h
  exact (hostExec_next h).coreInv hinv

/-- Settles O39: the request answers the reset state, element by element. -/
theorem resetZeroesEveryElement : Obligations.ResetZeroesEveryElement := by
  intro s
  exact ⟨State.reset, rfl, readReg_reset, rfl, readSlot_reset, rfl, fun _ => rfl, rfl, rfl⟩

/-- Settles O40: an address of memory is its own 12-bit port address, and a write reaches that byte alone. -/
theorem setupWriteOfAMemoryByte : Obligations.SetupWriteOfAMemoryByte := by
  intro s addr v hwf
  have hport (haddr : addr < 4096) : (BitVec.ofNat 12 addr).toNat = addr := by
    rw [BitVec.toNat_ofNat, Nat.mod_eq_of_lt haddr]
  refine ⟨fun hidle haddr => ⟨_, hostExec_writeMem_of_idle hidle haddr v, ?written, ?others, rfl, rfl, rfl, rfl, rfl, rfl⟩,
    fun h => hostExec_writeMem_refused h v⟩
  case written => rw [memWrite, Memory.read_write hwf, hport haddr, if_pos rfl]
  case others =>
    intro b hb
    rw [memWrite, Memory.read_write hwf, hport haddr, if_neg hb]

/-- Settles O41: an index of a register names that register alone. -/
theorem setupWriteOfARegister : Obligations.SetupWriteOfARegister := by
  intro s i v
  refine ⟨fun hidle hi => ⟨_, hostExec_writeReg_of_idle hidle hi v, readReg_writeReg_self .., ?others, rfl, rfl, rfl,
    rfl, rfl, rfl⟩, fun h => hostExec_writeReg_refused h v⟩
  case others =>
    intro j hj
    have hne : j ≠ BitVec.ofNat 4 i := fun h => hj (by rw [h, BitVec.toNat_ofNat, Nat.mod_eq_of_lt hi])
    exact readReg_writeReg_of_ne s _ j v hne

/-- Settles O42: no effect ends in IDLE, and of the host's requests only reset and run write the run state. -/
theorem runStateChangesOnlyAsAdmitted : Obligations.RunStateChangesOnlyAsAdmitted := by
  refine ⟨fun s t h => ⟨(step_cases h).1, step_run_ne_idle h⟩, ?host, fun s => hostExec_run_of_idle,
    fun s => hostExec_run_refused⟩
  case host =>
    intro q s t h hchanged
    cases hostExec_next h with
    | reset => exact .inr ⟨rfl, rfl⟩
    | writeMem addr v hidle haddr => exact absurd rfl hchanged
    | writeReg i v hidle hi => exact absurd rfl hchanged
    | run hidle => exact .inl ⟨rfl, hidle, rfl⟩

/-- Settles O43: reset is at the entry point, and every admitted request stays there. -/
theorem everyRunStartsAtTheEntryPoint : Obligations.EveryRunStartsAtTheEntryPoint := by
  intro qs t hsession
  obtain ⟨hpc, hsp, hslot, hcause, hrun⟩ := hostSession_atEntry hsession reset_atEntry
  exact ⟨hpc, hsp, hslot, hcause, hrun⟩

/-- Settles O44: an existing element reads as its value, status as its code, and an index out of range exists nowhere. -/
theorem hostReadsEveryElementOutsideRunning : Obligations.HostReadsEveryElementOutsideRunning := by
  intro s
  refine ⟨fun hrun e => hostRead_error (.inl hrun), ?outside, fun n => ⟨?small, ?memory⟩⟩
  case outside =>
    intro hrun
    refine ⟨hostRead_reg hrun, hostRead_slot hrun, hostRead_memByte hrun, hostRead_ok hrun rfl, hostRead_ok hrun rfl,
      (hostRead_ok hrun rfl).trans ?runCode, (hostRead_ok hrun rfl).trans ?causeCode⟩
    case runCode => cases h : s.run <;> simp only [elementValue, h] <;> rfl
    case causeCode => cases h : s.cause <;> simp only [elementValue, h] <;> rfl
  case small =>
    intro hn
    exact ⟨hostRead_error (.inr (mt (wf_reg n).mp hn.not_gt)), hostRead_error (.inr (mt (wf_slot n).mp hn.not_gt))⟩
  case memory =>
    intro hn
    exact hostRead_error (.inr (mt (wf_memByte n).mp hn.not_gt))

/-- Settles O45: the placed bytes decode to the instruction, at the address the state is made ready at. -/
theorem placedInstructionRunsNext : Obligations.PlacedInstructionRunsNext := by
  intro s i hsp hwf
  refine ⟨decodeTableWord_encode i, ?step⟩
  case step =>
    rw [withFetchWord_toNat, ← readyToRun_pc]
    exact step_placeWord (readyToRun_run s) hsp hwf (readyToRun_pc_le s) i

end Sys2Proof.Machine
